-- ==== Sys2Proof/Word.lean ====
section
/-! DEFINITION. The fixed widths of linear_ecc_encoder (spec 00_scope.md R3, 30_encoding.md R35): every value is an
unsigned bit vector of one of these widths, bit 0 the least significant. -/

namespace Sys2Proof

/-- A data symbol, a parity symbol, a syndrome, a fingerprint or a response: 8 bits (R3, R35). -/
abbrev Byte := BitVec 8

/-- A codeword or a row of the encoding table: 16 bits (R3). -/
abbrev Word16 := BitVec 16

/-- A request word: 18 bits (R35). -/
abbrev Request := BitVec 18

end Sys2Proof
end

