-- ==== Sys2Proof/Syntax.lean ====
section
/-! DEFINITION. The instruction set (spec 30_encoding.md R36, opcode_table.json): exactly four operations. -/

namespace Sys2Proof

/-- One constructor per row of the opcode table; operands at their own widths (R37). -/
inductive Instr where
  /-- ENC: `d` the data symbol; `x` the ignored field `req[7:0]`, kept so that a request word and its instruction
  determine each other (R39: any value legal, no effect). -/
  | enc (d : Byte) (x : Byte)
  /-- SYN: `w` the received codeword. -/
  | syn (w : Word16)
  /-- COR: `d` the data byte, `s` the syndrome. -/
  | cor (d : Byte) (s : Byte)
  /-- DEC: `w` the received codeword. -/
  | dec (w : Word16)
deriving DecidableEq, Repr

end Sys2Proof
end

