-- ==== Sys2Proof/WellFormed.lean ====
section
/-! DEFINITION. Which instructions are legal, and which are in the form the assembler produces. -/

namespace Sys2Proof

/-- Legal as an instruction: every one is. "There is no illegal encoding, no reserved encoding" (R39); the widths
of the operands (R37) are in their types, so there is no check to make. -/
def Instr.wellFormed : Instr → Bool
  | .enc _ _ => true
  | .syn _ => true
  | .cor _ _ => true
  | .dec _ => true

/-- In the assembler's form (R40): the ignored field of ENC is `0x00`. Other instructions are legal too (R39). -/
def Instr.assembled : Instr → Bool
  | .enc _ x => x == 0x00#8
  | .syn _ => true
  | .cor _ _ => true
  | .dec _ => true

/-- The instruction as the assembler writes it: the ignored field of ENC set to `0x00` (R40). -/
def Instr.canonical : Instr → Instr
  | .enc d _ => .enc d 0x00#8
  | .syn w => .syn w
  | .cor d s => .cor d s
  | .dec w => .dec w

end Sys2Proof
end

