-- ==== Sys2Proof/Decode.lean ====
section
/-! DEFINITION. Request words to instructions and back (spec 30_encoding.md R35 to R40). -/

namespace Sys2Proof

/-! The fields of a request word (R35). -/

/-- `op = req[17:16]`. -/
def Request.op (req : Request) : BitVec 2 := req.extractLsb' 16 2

/-- `a_hi = req[15:8]`. -/
def Request.aHi (req : Request) : Byte := req.extractLsb' 8 8

/-- `a_lo = req[7:0]`. -/
def Request.aLo (req : Request) : Byte := req.extractLsb' 0 8

/-- `a = req[15:0]`. -/
def Request.operand (req : Request) : Word16 := req.extractLsb' 0 16

/-- The operation a request selects (R36), with its operands (R37). Total: no request word is illegal (R39). -/
def decode (req : Request) : Instr :=
  if Request.op req = 0b00#2 then .enc (Request.aHi req) (Request.aLo req)
  else if Request.op req = 0b01#2 then .syn (Request.operand req)
  else if Request.op req = 0b10#2 then .cor (Request.aHi req) (Request.aLo req)
  else .dec (Request.operand req)

/-- The `op` field of an instruction (R36). -/
def Instr.opcode : Instr → BitVec 2
  | .enc _ _ => 0b00#2
  | .syn _ => 0b01#2
  | .cor _ _ => 0b10#2
  | .dec _ => 0b11#2

/-- The 16-bit operand field of an instruction (R37). -/
def Instr.operandField : Instr → Word16
  | .enc d x => d ++ x
  | .syn w => w
  | .cor d s => d ++ s
  | .dec w => w

/-- The request word of an instruction: `req = {op, a}` (R35). -/
def encode (i : Instr) : Request := i.opcode ++ i.operandField

/-- The mnemonic of an instruction, as the opcode table spells it (R36). -/
def Instr.mnemonic : Instr → String
  | .enc _ _ => "ENC"
  | .syn _ => "SYN"
  | .cor _ _ => "COR"
  | .dec _ => "DEC"

/-- A row of the opcode table (30_encoding.md section 3): `req & mask = pattern` selects it. -/
structure OpcodeRow where
  mnemonic : String
  mask : Request
  pattern : Request
deriving DecidableEq, Repr

/-- Whether a request word matches a row. -/
def OpcodeRow.selects (row : OpcodeRow) (req : Request) : Bool := (req &&& row.mask) == row.pattern

/-- The opcode table, row by row as 30_encoding.md section 3 prints it. -/
def opcodeTable : List OpcodeRow :=
  [ ⟨"ENC", 0x30000#18, 0x00000#18⟩,
    ⟨"SYN", 0x30000#18, 0x10000#18⟩,
    ⟨"COR", 0x30000#18, 0x20000#18⟩,
    ⟨"DEC", 0x30000#18, 0x30000#18⟩ ]

/-! Request words given as numbers (a test program writes one as a five-digit hexadecimal number, R40). -/

/-- Why a number is no request word. -/
inductive DecodeReject where
  /-- The number has a bit above bit 17, and a request word has 18 bits (R35). Safe: nothing is run. -/
  | widerThanRequest
deriving DecidableEq, Repr

/-- The request word a number stands for. DESIGN CHOICE (log entry 5): a number of 2^18 or more is no request word. -/
def requestOfNat (n : Nat) : Except DecodeReject Request :=
  if n < 2 ^ 18 then .ok (BitVec.ofNat 18 n) else .error .widerThanRequest

/-- Decoding a number: the instruction of the request word it stands for, or the reason it is none. -/
def decodeNat (n : Nat) : Except DecodeReject Instr :=
  match requestOfNat n with
  | .ok req => .ok (decode req)
  | .error why => .error why

/-- The request word whose bits 0 to `nbits - 1` are those of `w`, every bit above zero; none where that is no
request word. -/
def tableRequest (nbits w : Nat) : Option Request :=
  match requestOfNat (w % 2 ^ nbits) with
  | .ok req => some req
  | .error _ => none

/-- The instruction the decoder reads from an instruction whose bits are `w`, numbered as opcode_table.json
numbers them. -/
def decodeTableWord (nbits w : Nat) : Option Instr :=
  match decodeNat (w % 2 ^ nbits) with
  | .ok i => some i
  | .error _ => none

end Sys2Proof
end

