-- ==== Sys2Proof/Machine/Flags.lean ====
section
/-! DEFINITION. CORE has no flags (spec 10_state.md R13, D12). What it computes bit by bit is the parity of a masked
word, one check bit per table row (41_encoder.md R61, 45_codec_laws.md R86). -/

namespace Sys2Proof.Machine

/-- The XOR of bits 0 to `n - 1` of `v`. -/
def parityBelow {w : Nat} (v : BitVec w) : Nat → Bool
  | 0 => false
  | n + 1 => parityBelow v n ^^ v.getLsbD n

/-- `parity(v)`: the XOR of all bits of `v` (R61, D17). -/
def parity {w : Nat} (v : BitVec w) : Bool := parityBelow v w

/-- The number of set bits among bits 0 to `n - 1` of `v`. -/
def popcountBelow {w : Nat} (v : BitVec w) : Nat → Nat
  | 0 => 0
  | n + 1 => popcountBelow v n + (v.getLsbD n).toNat

/-- `popcount(v)`: the number of set bits of `v` (00_scope.md section 5). No result of CORE is a count (R61). -/
def popcount {w : Nat} (v : BitVec w) : Nat := popcountBelow v w

end Sys2Proof.Machine
end

