-- ==== Sys2Proof/Machine/Operands.lean ====
section
/-! DEFINITION. Operand forms: the codeword layout and the notation of spec 00_scope.md section 5 and 20_memory.md
R21, R22. No operand is extended, scaled or shifted (30_encoding.md R37). -/

namespace Sys2Proof.Machine

/-- `w[15:8]`: the data symbol of a codeword (R21), or `Hhi[r]` of a row. -/
def highByte (w : Word16) : Byte := w.extractLsb' 8 8

/-- `w[7:0]`: the parity symbol of a codeword (R21), or `Hlo[r]` of a row. -/
def lowByte (w : Word16) : Byte := w.extractLsb' 0 8

/-- `{d, q}`: the codeword with data symbol `d` and parity symbol `q` (R21). The bytes are never swapped (R24). -/
def codeword (d q : Byte) : Word16 := d ++ q

/-- `e(p)`: the 16-bit word with only bit `p` set. -/
def bitWord (p : Nat) : Word16 := 1#16 <<< p

/-- `flip(v, k)`: `v ^ (1 << k)`. -/
def flip (v : Byte) (k : Nat) : Byte := v ^^^ (1#8 <<< k)

/-- `set_bit(v, k)`: `v` with bit `k` forced to 1. -/
def setBit (v : Byte) (k : Nat) : Byte := v ||| (1#8 <<< k)

end Sys2Proof.Machine
end

