-- ==== Sys2Proof/Config.lean ====
section
/-! DEFINITION. The implementation parameters of CORE (spec 00_scope.md R4): the two Code Tables and nothing else.
Their 24 values are open (D7, R59), so no value is fixed here; the machine holds them as plain data and every
definition takes them as an argument. The spec leaves no result undefined, so there is no free value. -/

namespace Sys2Proof

/-- The Code Tables, R50 and R51: `h` is `TABLE_H`, the 8 sixteen-bit rows of the parity-check matrix; `d` is
`TABLE_D`, the 16 eight-bit fingerprints. -/
structure Tables where
  h : Vector Word16 8
  d : Vector Byte 16
deriving DecidableEq, Repr

end Sys2Proof
end

