-- ==== Sys2Proof/Machine/CodeTables.lean ====
section
/-! DEFINITION. The reference instance REF of the Code Tables (spec 40_code_tables.md R58): the spec's own choice for
tests, not the repository's values. -/

namespace Sys2Proof.Machine

/-- REF_H and REF_D of R58. -/
def refTables : Tables where
  h := #v[0x0F80#16, 0x3340#16, 0x5520#16, 0x6A10#16, 0x9708#16, 0xA904#16, 0xDE02#16, 0xE701#16]
  d := #v[0x0F#8, 0x33#8, 0x55#8, 0x6A#8, 0x96#8, 0xAB#8, 0xDB#8, 0xED#8,
          0x80#8, 0x40#8, 0x20#8, 0x10#8, 0x08#8, 0x04#8, 0x02#8, 0x01#8]

end Sys2Proof.Machine
end

