-- ==== Sys2Proof/Machine/State.lean ====
section
/-! DEFINITION. The state of the machine: the constant tables (spec 10_state.md R15, R19) and the request sequence
with its responses (R12, D14). CORE has no other state, mutable or hidden (R10, R11, R13, R14, R17). -/

namespace Sys2Proof.Machine

/-- The machine's state, plain data. -/
structure State where
  /-- `TABLE_H` and `TABLE_D`, the only stored values in CORE (R15). No step writes them (log entry 1). -/
  tables : Tables
  /-- The request words presented at port `req` and not yet answered, oldest first. The host interface's own field
  (D14, log entry 3). -/
  requests : List Request
  /-- The response words delivered at port `rsp`, oldest first. The host interface's own field (D14, log entry 3). -/
  responses : List Byte
deriving DecidableEq, Repr

/-- Why the machine faults: it never does. "The list of synchronous exceptions of CORE is empty" (R100); no
interrupt (R102), no trap (R104). So there is no constructor. -/
inductive Fault where
deriving DecidableEq, Repr

/-- Why the machine refuses an instruction. -/
inductive Refusal where
  /-- An instruction with no meaning in this model, by its mnemonic. Raised by nobody: all four operations have
  their meaning. Safe. -/
  | notModelled (mnemonic : String)
deriving DecidableEq, Repr

/-- The outcome of one step of this machine. -/
abbrev Result := Host.Outcome State Fault Refusal

/-- The machine right after reset: reset has no architectural effect (R115), nothing is pending and nothing
answered. The spec gives no table values (R4, N1): DESIGN CHOICE, the reference instance REF of R58 (log entry 2). -/
def State.reset : State where
  tables := refTables
  requests := []
  responses := []

end Sys2Proof.Machine
end

