-- ==== Sys2Proof/Machine/Ops.lean ====
section
/-! DEFINITION. The operations the meanings share: table reads (spec 20_memory.md R27), the row loop of ENC and SYN
(41_encoder.md R60, 42_syndrome_computer.md R65), taking a request and delivering a response (30_encoding.md R38).
CORE has no memory to read or write (R20) and no exception to take or return from (60_exceptions.md R104, R105). -/

namespace Sys2Proof.Machine

/-- `H[r]`: one whole row of the encoding table (R27). -/
def readH (t : Tables) (r : Fin 8) : Word16 := t.h[r]

/-- `D[i]`: one whole fingerprint of the decoding table (R27). -/
def readD (t : Tables) (i : Fin 16) : Byte := t.d[i]

/-- The rows in the order they are visited: `for r in 0..7`. -/
def rowIndices : List (Fin 8) := [0, 1, 2, 3, 4, 5, 6, 7]

/-- The decoding-table indices in scan order: `for i in 0..15`. -/
def tableIndices : List (Fin 16) := [0, 1, 2, 3, 4, 5, 6, 7, 8, 9, 10, 11, 12, 13, 14, 15]

/-- The indices `j` from `i` to 15, ascending: `for j in i..15`. -/
def indicesFrom (i : Fin 16) : List (Fin 16) := tableIndices.filter (i ≤ ·)

/-- The row loop of ENC and SYN: starting from `0x00`, set output bit `7 - r` for each row `r` whose check is odd. -/
def rowChecks (odd : Fin 8 → Bool) : Byte :=
  rowIndices.foldl (fun out r => if odd r then setBit out (7 - r.val) else out) 0x00#8

/-- Deliver an 8-bit result as the response of the request being answered; nothing else changes (R10, R104). -/
def State.answer (s : State) (rsp : Byte) : State := { s with responses := s.responses ++ [rsp] }

/-- The next request presented to CORE, if there is one, and the state in which it is no longer pending. -/
def State.fetch (s : State) : Option (Request × State) :=
  match s.requests with
  | [] => none
  | req :: rest => some (req, { s with requests := rest })

/-- What a step does when no request is presented: nothing. DESIGN CHOICE (log entry 4). -/
def State.idle (s : State) : Result := .next s

/-- Present a request word ahead of the pending ones. -/
def State.present (s : State) (req : Request) : State := { s with requests := req :: s.requests }

end Sys2Proof.Machine
end

