-- ==== Sys2Proof/Machine/Corrector.lean ====
section
/-! DEFINITION. The Corrector: operation COR, unit ecc_corrector (spec 43_corrector.md R70 to R77), as its literal
pseudocode. The closed form `flipMask` (R70) is only for statements; no meaning calls it. -/

namespace Sys2Proof.Machine

/-- `if i < 8: d <- flip(d, 7 - i)`: an index of 8 or more is a parity position and flips nothing (R71, R22). -/
def flipAt (i : Fin 16) (d : Byte) : Byte := if i.val < 8 then flip d (7 - i.val) else d

/-- Step 1 (R71): the first index whose fingerprint equals the syndrome. -/
def singleMatch (t : Tables) (s : Byte) : Option (Fin 16) := tableIndices.find? fun i => readD t i == s

/-- One pair of step 2 (R72): on a match flip at `i`, and at `j` too when `i != j`. -/
def applyPair (t : Tables) (s : Byte) (i j : Fin 16) (d : Byte) : Byte :=
  if readD t i ^^^ readD t j = s then
    if i ≠ j then flipAt j (flipAt i d) else flipAt i d
  else d

/-- Step 2 (R72, R75): every pair `i <= j`, `i` ascending and `j` ascending from `i` (D19); every matching pair is
applied and the scan never ends early. -/
def applyPairs (t : Tables) (s d : Byte) : Byte :=
  tableIndices.foldl (fun d i => (indicesFrom i).foldl (fun d j => applyPair t s i j d) d) d

/-- `COR(d, s)` (R70): a single match decides; else every matching pair; else (R73) `d` as it came. Total, the
syndrome `0x00` included (R74, log entry 6). -/
def cor (t : Tables) (d s : Byte) : Byte :=
  match singleMatch t s with
  | some i => flipAt i d
  | none => applyPairs t s d

/-- The meaning of COR: the response is the corrected byte. -/
def execCor (d syndrome : Byte) (s : State) : Result := .next (s.answer (cor s.tables d syndrome))

/-! The closed form of R70. -/

/-- `m(k)`: the data-byte mask of table index `k`. -/
def indexMask (k : Fin 16) : Byte := if k.val < 8 then 1#8 <<< (7 - k.val) else 0x00#8

/-- The pairs `(i, j)`, `0 <= i <= j <= 15`. -/
def indexPairs : List (Fin 16 × Fin 16) := tableIndices.flatMap fun i => (indicesFrom i).map fun j => (i, j)

/-- `FLIP(s)` of R70: the mask of the least single match; else the XOR of the masks of all matching pairs. -/
def flipMask (t : Tables) (s : Byte) : Byte :=
  match singleMatch t s with
  | some i => indexMask i
  | none =>
    ((indexPairs.filter fun p => readD t p.1 ^^^ readD t p.2 == s).map fun p =>
      indexMask p.1 ^^^ (if p.1 ≠ p.2 then indexMask p.2 else 0x00#8)).foldl (· ^^^ ·) 0x00#8

end Sys2Proof.Machine
end

