-- ==== Sys2Proof/Machine/SyndromeComputer.lean ====
section
/-! DEFINITION. The Syndrome Computer: operation SYN, unit syndrome_computer (spec 42_syndrome_computer.md R65 to R68). -/

namespace Sys2Proof.Machine

/-- `SYN(w)` (R65): each whole row masks the codeword, and the parity of the result is output bit `7 - r`. -/
def syn (t : Tables) (w : Word16) : Byte := rowChecks fun r => parity (readH t r &&& w)

/-- The meaning of SYN: the response is the syndrome. -/
def execSyn (w : Word16) (s : State) : Result := .next (s.answer (syn s.tables w))

end Sys2Proof.Machine
end

