-- ==== Sys2Proof/Machine/Decoder.lean ====
section
/-! DEFINITION. The Decoder: operation DEC, unit ecc_decoder (spec 44_decoder.md R80 to R82). -/

namespace Sys2Proof.Machine

/-- `DEC(w)` (R80): the high byte unchanged when the syndrome is zero, else the Corrector's result on it. One SYN,
at most one COR, no second pass (R81). -/
def dec (t : Tables) (w : Word16) : Byte :=
  if syn t w = 0x00#8 then highByte w else cor t (highByte w) (syn t w)

/-- The meaning of DEC: the response is the decoded data byte. -/
def execDec (w : Word16) (s : State) : Result := .next (s.answer (dec s.tables w))

end Sys2Proof.Machine
end

