-- ==== Sys2Proof/Machine/Encoder.lean ====
section
/-! DEFINITION. The Encoder: operation ENC, unit linear_ecc_encoder (spec 41_encoder.md R60 to R62). -/

namespace Sys2Proof.Machine

/-- `ENC(d)` (R60): each row's high byte masks the data byte, and the parity of the result is output bit `7 - r`. -/
def enc (t : Tables) (d : Byte) : Byte := rowChecks fun r => parity (highByte (readH t r) &&& d)

/-- The meaning of ENC: the response is the parity symbol; the field `req[7:0]` is ignored (R37, R39). -/
def execEnc (d _x : Byte) (s : State) : Result := .next (s.answer (enc s.tables d))

end Sys2Proof.Machine
end

