-- ==== Sys2Proof/Machine/Dispatch.lean ====
section
/-! DEFINITION. One arm per operation (spec 30_encoding.md R36). -/

namespace Sys2Proof.Machine

/-- The meaning of an instruction. -/
def exec (i : Instr) (s : State) : Host.Outcome State Fault Refusal :=
  match i with
  | .enc d x => Sys2Proof.Machine.execEnc d x s
  | .syn w => Sys2Proof.Machine.execSyn w s
  | .cor d syndrome => Sys2Proof.Machine.execCor d syndrome s
  | .dec w => Sys2Proof.Machine.execDec w s

end Sys2Proof.Machine
end

