-- ==== Sys2Proof/Machine/Step.lean ====
section
/-! DEFINITION. One step of the machine: one evaluation of a request (spec 92_eei_decisions.md D1, D14). -/

namespace Sys2Proof.Machine

/-- Take the oldest pending request and answer it; with none presented, nothing happens. -/
def step (s : State) : Host.Outcome State Fault Refusal :=
  match s.fetch with
  | none => s.idle
  | some (req, s') => exec (decode req) s'

/-- `s` with the request word `w` presented first, so that the next step answers exactly it; a number that is no
request word presents nothing (log entry 5). -/
def State.withFetchWord (s : State) (nbits w : Nat) : State :=
  match tableRequest nbits w with
  | some req => s.present req
  | none => s

end Sys2Proof.Machine
end

