-- ==== Sys2Proof/Machine/Assembler.lean ====
section
/-! DEFINITION. The assembler notation of spec 30_encoding.md R40 (D5), as lists of characters: one request a line.
DESIGN CHOICE in the spacing, the case of digits and the comments it reads (log entry 10). -/

namespace Sys2Proof.Machine

/-- A hexadecimal digit, as the spec prints it. -/
def hexDigit (n : BitVec 4) : Char :=
  if n.toNat < 10 then Char.ofNat (48 + n.toNat) else Char.ofNat (55 + n.toNat)

/-- The value of a hexadecimal digit, upper or lower case. -/
def digitValue (c : Char) : Option (BitVec 4) :=
  if 48 ≤ c.toNat ∧ c.toNat ≤ 57 then some (BitVec.ofNat 4 (c.toNat - 48))
  else if 65 ≤ c.toNat ∧ c.toNat ≤ 70 then some (BitVec.ofNat 4 (c.toNat - 55))
  else if 97 ≤ c.toNat ∧ c.toNat ≤ 102 then some (BitVec.ofNat 4 (c.toNat - 87))
  else none

/-- An 8-bit literal: `0x` and two digits. -/
def byteText (b : Byte) : List Char := ['0', 'x', hexDigit (b.extractLsb' 4 4), hexDigit (b.extractLsb' 0 4)]

/-- A 16-bit literal: `0x` and four digits. -/
def wordText (w : Word16) : List Char :=
  ['0', 'x', hexDigit (w.extractLsb' 12 4), hexDigit (w.extractLsb' 8 4), hexDigit (w.extractLsb' 4 4),
    hexDigit (w.extractLsb' 0 4)]

/-- A request word: `0x` and five digits (R40). -/
def requestText (req : Request) : List Char :=
  ['0', 'x', hexDigit ((req.extractLsb' 16 2).setWidth 4)] ++ (wordText (req.extractLsb' 0 16)).drop 2

/-- The disassembler: `ENC d`, `SYN w`, `COR d, s`, `DEC w`; the ignored field of ENC is not printed (R40). -/
def disassemble : Instr → List Char
  | .enc d _ => ['E', 'N', 'C', ' '] ++ byteText d
  | .syn w => ['S', 'Y', 'N', ' '] ++ wordText w
  | .cor d s => ['C', 'O', 'R', ' '] ++ byteText d ++ [',', ' '] ++ byteText s
  | .dec w => ['D', 'E', 'C', ' '] ++ wordText w

/-- Read an 8-bit literal off the front of a text. -/
def readByte : List Char → Option (Byte × List Char)
  | '0' :: 'x' :: a :: b :: rest =>
    match digitValue a, digitValue b with
    | some a, some b => some (a ++ b, rest)
    | _, _ => none
  | _ => none

/-- Read a 16-bit literal off the front of a text. -/
def readWord : List Char → Option (Word16 × List Char)
  | '0' :: 'x' :: a :: b :: c :: d :: rest =>
    match digitValue a, digitValue b, digitValue c, digitValue d with
    | some a, some b, some c, some d => some ((a ++ b) ++ (c ++ d), rest)
    | _, _, _, _ => none
  | _ => none

/-- The text after its leading spaces. -/
def skipSpaces (text : List Char) : List Char := text.dropWhile (· == ' ')

/-- Nothing but spaces and a comment is left of a line. -/
def lineEnds (text : List Char) : Bool :=
  match skipSpaces text with
  | [] => true
  | c :: _ => c == ';'

/-- The operands `w` of a line, as the instruction `make w`. -/
def readWordLine (make : Word16 → Instr) (text : List Char) : Option Instr :=
  match readWord (skipSpaces text) with
  | some (w, rest) => if lineEnds rest then some (make w) else none
  | none => none

/-- The operand of an ENC line; the assembler sets the ignored field to `0x00` (R40). -/
def readEncLine (text : List Char) : Option Instr :=
  match readByte (skipSpaces text) with
  | some (d, rest) => if lineEnds rest then some (.enc d 0x00#8) else none
  | none => none

/-- The operands `d, s` of a COR line. -/
def readCorLine (text : List Char) : Option Instr :=
  match readByte (skipSpaces text) with
  | some (d, rest) =>
    match skipSpaces rest with
    | ',' :: rest =>
      match readByte (skipSpaces rest) with
      | some (s, rest) => if lineEnds rest then some (.cor d s) else none
      | none => none
    | _ => none
  | none => none

/-- The assembler: the instruction of one line (R40), none for a text that is no line of the notation. -/
def assemble : List Char → Option Instr
  | 'E' :: 'N' :: 'C' :: ' ' :: rest => readEncLine rest
  | 'S' :: 'Y' :: 'N' :: ' ' :: rest => readWordLine .syn rest
  | 'C' :: 'O' :: 'R' :: ' ' :: rest => readCorLine rest
  | 'D' :: 'E' :: 'C' :: ' ' :: rest => readWordLine .dec rest
  | _ => none

end Sys2Proof.Machine
end

