-- ==== Sys2Proof/Machine/Units.lean ====
section
/-! DEFINITION. The ports of the four units and the request port of CORE (spec 10_state.md section 5 and R18,
30_encoding.md R38, R41): each output is a function of the inputs at the same evaluation and of the tables. -/

namespace Sys2Proof.Machine

/-- Unit `linear_ecc_encoder`: input `data_i[7:0]`, output `parity_o[7:0]`. -/
def linearEccEncoder (t : Tables) (data_i : Byte) : Byte := enc t data_i

/-- Unit `syndrome_computer`: input `cw_i[15:0]`, output `syn_o[7:0]`. -/
def syndromeComputer (t : Tables) (cw_i : Word16) : Byte := syn t cw_i

/-- Unit `ecc_corrector`: inputs `data_i[7:0]` and `syn_i[7:0]`, output `data_o[7:0]`. -/
def eccCorrector (t : Tables) (data_i syn_i : Byte) : Byte := cor t data_i syn_i

/-- Unit `ecc_decoder`: input `cw_i[15:0]`, output `data_o[7:0]`. -/
def eccDecoder (t : Tables) (cw_i : Word16) : Byte := dec t cw_i

/-- CORE as one block: `rsp[7:0]` as the case of R38 on `req[17:16]`, straight from the request's bits. The step
does not use it; that the two agree is a statement. -/
def respond (t : Tables) (req : Request) : Byte :=
  bif req.getLsbD 17 then
    bif req.getLsbD 16 then eccDecoder t (req.extractLsb' 0 16)
    else eccCorrector t (req.extractLsb' 8 8) (req.extractLsb' 0 8)
  else
    bif req.getLsbD 16 then syndromeComputer t (req.extractLsb' 0 16)
    else linearEccEncoder t (req.extractLsb' 8 8)

end Sys2Proof.Machine
end

