-- ==== Sys2Proof/Machine/Stream.lean ====
section
/-! DEFINITION. The host's byte streams (spec 20_memory.md R23 to R25, 41_encoder.md R62, 44_decoder.md R82): duties of
the host recorded by the spec, not behaviour of CORE. No step calls these (log entry 11). -/

namespace Sys2Proof.Machine

/-- The requests that encode a message: ENC once per data byte, ignored field `0x00` (R62, R40). -/
def encodeRequests (message : List Byte) : List Request := message.map fun b => encode (.enc b 0x00#8)

/-- The encode-side stream of the data bytes and their parity symbols, data byte first (R23). -/
def interleave : List Byte → List Byte → List Byte
  | b :: bs, p :: ps => b :: p :: interleave bs ps
  | _, _ => []

/-- The codewords of a received stream: the first byte of each pair is bits 15:8, and a trailing odd byte is dropped
(R24, R25, R26). -/
def codewordsOf : List Byte → List Word16
  | b :: p :: rest => codeword b p :: codewordsOf rest
  | [_] => []
  | [] => []

/-- The requests that decode a received stream: DEC once per codeword (R82). -/
def decodeRequests (stream : List Byte) : List Request := (codewordsOf stream).map fun w => encode (.dec w)

/-- The stream the host writes for a message when CORE answers its ENC requests (R23). -/
def encodeStream (t : Tables) (message : List Byte) : List Byte :=
  interleave message ((encodeRequests message).map (respond t))

/-- The bytes the host writes for a received stream when CORE answers its DEC requests (R24, R25). -/
def decodeStream (t : Tables) (stream : List Byte) : List Byte := (decodeRequests stream).map (respond t)

end Sys2Proof.Machine
end

