-- ==== Sys2Proof/Machine/TableConditions.lean ====
section
/-! DEFINITION. The well-formedness conditions on the Code Tables (spec 40_code_tables.md R53 to R57): hypotheses of
the codec's laws, never preconditions of the operations (D18). -/

namespace Sys2Proof.Machine

/-- WF_CONSISTENT (R53): the syndrome of every encoded byte is zero. -/
abbrev WfConsistent (t : Tables) : Prop := ∀ b : Byte, syn t (codeword b (enc t b)) = 0x00#8

/-- WF_COLUMNS (R54, D8): fingerprint `i` is column `15 - i` of the parity-check matrix. -/
abbrev WfColumns (t : Tables) : Prop := ∀ i : Fin 16, readD t i = syn t (bitWord (15 - i.val))

/-- WF_DISTINCT (R55): the fingerprints are pairwise different and none is zero. -/
abbrev WfDistinct (t : Tables) : Prop :=
  (∀ i : Fin 16, readD t i ≠ 0x00#8) ∧ ∀ i j : Fin 16, readD t i = readD t j → i = j

/-- WF_PAIRS (R56): at most one pair `i < j` has a given nonzero XOR. -/
abbrev WfPairs (t : Tables) : Prop :=
  ∀ s : Byte, s ≠ 0x00#8 → ∀ i j k l : Fin 16, i < j → k < l →
    readD t i ^^^ readD t j = s → readD t k ^^^ readD t l = s → i = k ∧ j = l

/-- WF_SEPARATE (R57): no pair XOR equals a single fingerprint. -/
abbrev WfSeparate (t : Tables) : Prop :=
  ∀ i j : Fin 16, i < j → ∀ k : Fin 16, readD t i ^^^ readD t j ≠ readD t k

/-- The low bytes of the rows are the identity: `Hlo[r] = 0x80 >> r` (R53). -/
abbrev IdentityLowBytes (t : Tables) : Prop := ∀ r : Fin 8, lowByte (readH t r) = 0x80#8 >>> r.val

/-- The high bytes of the rows are linearly independent over XOR (R53): only the empty choice of rows has XOR zero. -/
def IndependentHighBytes (t : Tables) : Prop :=
  ∀ chosen : Fin 8 → Bool,
    rowIndices.foldl (fun acc r => if chosen r then acc ^^^ highByte (readH t r) else acc) 0x00#8 = 0x00#8 →
      ∀ r, chosen r = false

end Sys2Proof.Machine
end

