-- ==== Sys2Proof/Safety.lean ====
section
/-! DEFINITION. What claims call a good table pair, a kept promise and a safe outcome. -/

namespace Sys2Proof.Machine

/-- The conditions under which single-bit correction is exact (spec 45_codec_laws.md R93). -/
structure CorrectsOne (t : Tables) : Prop where
  consistent : WfConsistent t
  columns : WfColumns t
  distinct : WfDistinct t

/-- The conditions under which every one- and two-bit error is corrected (R94). -/
structure CorrectsTwo (t : Tables) : Prop extends CorrectsOne t where
  pairs : WfPairs t
  separate : WfSeparate t

/-- Every nonzero valid codeword has at least five bits set: minimum distance at least 5 (R57). -/
def DistanceFive (t : Tables) : Prop := ∀ x : Word16, x ≠ 0x0000#16 → popcount x ≤ 4 → syn t x ≠ 0x00#8

/-- The response list a state leads to: what is delivered, then the response of each pending request (R12, R29). -/
def State.promised (s : State) : List Byte := s.responses ++ s.requests.map (respond s.tables)

/-- The step went on: no fault and no refusal (60_exceptions.md R100, R104). -/
def wentOn : Host.Outcome State Fault Refusal → Bool
  | .next _ => true
  | .fault _ => false
  | .refused _ => false

end Sys2Proof.Machine
end

