-- ==== Sys2Proof/Certificates/Slice0/Obligations.lean ====
section
/-! DEFINITION. The statements for the provers. `s`, `s'` are states, `t` a pair of Code Tables; every statement about an
operation holds for all tables (spec 40_code_tables.md R59) or names the WF_* conditions it needs. -/

open Sys2Proof Sys2Proof.Machine

/-! ## Requests and instructions -/

/-- The four examples of 30_encoding.md section 6, written bit by bit, and an ENC request with a nonzero ignored
field (R39), decode to the instructions they stand for. -/
def Obligations.WrittenRequestWordsDecode : Prop :=
  decode 0b001010010100000000#18 = .enc 0xA5#8 0x00#8 ∧
  decode 0b011010010100011100#18 = .syn 0xA51C#16 ∧
  decode 0b100010010100001111#18 = .cor 0x25#8 0x0F#8 ∧
  decode 0b110010010100011100#18 = .dec 0x251C#16 ∧
  decode 0b001010010111111111#18 = .enc 0xA5#8 0xFF#8

/-- Decoding an encoded instruction gives it back, with every operand value (every instruction is well formed, R39).
That ENC's ignored field `req[7:0]` is one of the operands is the model's choice (log entry 13). -/
def Obligations.DecodeUndoesEncode : Prop := ∀ i : Instr, decode (encode i) = i

/-- Encoding a decoded request gives it back: decoding drops no bit of any of the 2^18 request words. For the words of
ENC this is the model's choice (log entry 13): the instruction keeps `req[7:0]` as an operand, while R37 and R39 only say
that the field is ignored. -/
def Obligations.EncodeUndoesDecode : Prop := ∀ req : Request, encode (decode req) = req

/-- R36: `op = req[17:16]` selects the operation. R37: each operand is the bit field the rule names, at its own width. -/
def Obligations.RequestFieldsSelectAndFeed : Prop :=
  ∀ req : Request,
    (req.getLsbD 17 = false → req.getLsbD 16 = false → ∃ d x, decode req = .enc d x ∧
      ∀ k < 8, d.getLsbD k = req.getLsbD (8 + k)) ∧
    (req.getLsbD 17 = false → req.getLsbD 16 = true → ∃ w, decode req = .syn w ∧
      ∀ k < 16, w.getLsbD k = req.getLsbD k) ∧
    (req.getLsbD 17 = true → req.getLsbD 16 = false → ∃ d q, decode req = .cor d q ∧
      ∀ k < 8, d.getLsbD k = req.getLsbD (8 + k) ∧ q.getLsbD k = req.getLsbD k) ∧
    (req.getLsbD 17 = true → req.getLsbD 16 = true → ∃ w, decode req = .dec w ∧
      ∀ k < 16, w.getLsbD k = req.getLsbD k)

/-- The rows of the opcode table partition the request words, and the decoder agrees with the row (30_encoding.md
sections 3 and 4). -/
def Obligations.EachRequestMatchesOneRow : Prop :=
  ∀ req : Request, ∃ row ∈ opcodeTable, row.selects req = true ∧ row.mnemonic = (decode req).mnemonic ∧
    ∀ other ∈ opcodeTable, other.selects req = true → other = row

/-- R40: assembling a disassembled instruction gives it back with the ignored field of ENC set to `0x00`. (How the
assembler treats spacing, digit case and comments is the model's choice, log entry 10; nothing here rests on it.) -/
def Obligations.AssemblerReadsWhatItPrints : Prop :=
  ∀ i : Instr, assemble (disassemble i) = some i.canonical

/-! ## The step -/

/-- A step runs the instruction that the oldest pending request decodes to, on the state in which that request is no
longer pending. With no request pending the step changes nothing: the model's choice (log entry 4). -/
def Obligations.StepRunsTheDecodedRequest : Prop :=
  ∀ s : State,
    (∀ req rest, s.requests = req :: rest → step s = exec (decode req) { s with requests := rest }) ∧
    (s.requests = [] → step s = .next s)

/-- A request word given as a number decodes as its bits do, and, presented, is what the very next step runs
(how a number stands for a request word is the model's choice, log entry 5). -/
def Obligations.PresentedNumberRunsNext : Prop :=
  ∀ (s : State) (nbits w : Nat), w < 2 ^ 18 → w < 2 ^ nbits →
    decodeTableWord nbits w = some (decode (BitVec.ofNat 18 w)) ∧
    step (s.withFetchWord nbits w) = exec (decode (BitVec.ofNat 18 w)) s

/-- R38 and R41: the response to a request is the selected unit's output on the request's fields; the request is gone
from the pending ones and nothing else changes. `respond` reads R38's case from the request's bits, past the decoder. -/
def Obligations.ResponseIsTheSelectedUnitsOutput : Prop :=
  ∀ (s : State) (req : Request) (rest : List Request), s.requests = req :: rest →
    step s = .next { tables := s.tables, requests := rest, responses := s.responses ++ [respond s.tables req] }

/-- No operation faults or is refused, on any operands and any tables (R100), and no step is. That a step with no
request pending goes on too is the model's choice (log entry 4). -/
def Obligations.NoOperationRaisesAnything : Prop :=
  (∀ (i : Instr) (s : State), wentOn (exec i s) = true) ∧ ∀ s : State, wentOn (step s) = true

/-- The frame of all four operations: the tables read as before at every index, the pending requests and the earlier
responses are unchanged, and exactly one response is added (R10, R13, R27). -/
def Obligations.OperationsOnlyAddOneResponse : Prop :=
  ∀ (i : Instr) (s s' : State), exec i s = .next s' →
    (∀ r, readH s'.tables r = readH s.tables r) ∧ (∀ k, readD s'.tables k = readD s.tables k) ∧
    s'.requests = s.requests ∧ ∃ rsp : Byte, s'.responses = s.responses ++ [rsp]

/-- R10: the result depends on the operands and the tables only, not on earlier operations nor on how many there were. -/
def Obligations.ResultIgnoresHistory : Prop :=
  ∀ (i : Instr) (s s' : State), s.tables = s'.tables → ∃ rsp : Byte,
    exec i s = .next { s with responses := s.responses ++ [rsp] } ∧
    exec i s' = .next { s' with responses := s'.responses ++ [rsp] }

/-- No sequence of operations gives a table entry another value (R15, R27, R31, R115). (A step with no request pending
changes nothing: the model's choice, log entry 4.) -/
def Obligations.NoRunChangesATable : Prop :=
  ∀ (n : Nat) (s s' : State), core.run n s = .next s' → s'.tables = s.tables

/-- A run of `n` steps answers the first `n` pending requests in their own positions, each by its own request alone,
for every state and every `n` (R12, D14). (Steps beyond the last request change nothing: the model's choice, log
entry 4.) -/
def Obligations.RunAnswersEachRequestInItsPlace : Prop :=
  ∀ (n : Nat) (s : State), core.run n s =
    .next { tables := s.tables, requests := s.requests.drop n,
            responses := s.responses ++ (s.requests.take n).map (respond s.tables) }

/-- Two orders of the same requests give each request the same response, whatever was delivered before (R29, R32). -/
def Obligations.OrderOfRequestsCannotBeSeen : Prop :=
  ∀ s s' : State, s.tables = s'.tables → s.requests.Perm s'.requests → ∃ new new' : List Byte,
    core.run s.requests.length s =
      .next { tables := s.tables, requests := [], responses := s.responses ++ new } ∧
    core.run s'.requests.length s' =
      .next { tables := s'.tables, requests := [], responses := s'.responses ++ new' } ∧
    new.length = s.requests.length ∧ new'.length = s'.requests.length ∧
    (s.requests.zip new).Perm (s'.requests.zip new')

/-- The invariant of the machine: every step keeps the tables and the response list the state leads to (delivered
responses, then the response of each pending request), whatever they are. (A step with no request pending changes
nothing: the model's choice, log entry 4.) -/
def Obligations.EveryStepKeepsThePromisedResponses : Prop :=
  ∀ (t : Tables) (promise : List Byte) (s s' : State), s.tables = t ∧ s.promised = promise → step s = .next s' →
    s'.tables = t ∧ s'.promised = promise

/-- At reset nothing is promised and the tables are REF. Both are the model's choices (log entries 2 and 3); the spec
gives no reset value (R19). -/
def Obligations.ResetPromisesNothing : Prop :=
  State.reset.tables = refTables ∧ State.reset.promised = []

/-! ## The tables -/

/-- The reference instance meets every condition: R53 to R57, minimum distance exactly 5, and identity low bytes. REF is
the spec's own choice (R58) and this model's reset value (log entry 2); it says nothing of other tables (R59). -/
def Obligations.ReferenceTablesMeetEveryCondition : Prop :=
  CorrectsTwo refTables ∧ DistanceFive refTables ∧
  (popcount 0x0546#16 = 5 ∧ syn refTables 0x0546#16 = 0x00#8) ∧
  ∀ w : Word16, syn refTables w = enc refTables (highByte w) ^^^ lowByte w

/-- R53 written out per row, and the sufficient form of the low bytes. -/
def Obligations.ConsistencyRowByRow : Prop :=
  ∀ t : Tables,
    (WfConsistent t ↔ ∀ (r : Fin 8) (b : Byte),
      parity (lowByte (readH t r) &&& enc t b) = (enc t b).getLsbD (7 - r.val)) ∧
    (IdentityLowBytes t → WfConsistent t)

/-- R53: with linearly independent high bytes, consistent tables have identity low bytes. -/
def Obligations.IdentityLowBytesAreForced : Prop :=
  ∀ t : Tables, IndependentHighBytes t → WfConsistent t → IdentityLowBytes t

/-- R54: WF_COLUMNS is the transposition `D[i][7 - r] = H[r][15 - i]`. -/
def Obligations.FingerprintsAreColumns : Prop :=
  ∀ t : Tables, WfColumns t ↔ ∀ (i : Fin 16) (r : Fin 8),
    (readD t i).getLsbD (7 - r.val) = (readH t r).getLsbD (15 - i.val)

/-- R20: what the responses of SYN and ENC to a word with one bit set tell of the tables. -/
def Obligations.TableEntriesShowInResults : Prop :=
  ∀ (s : State) (p : Nat), p < 16 → ∃ q : Byte,
    exec (.syn (bitWord p)) s = .next { s with responses := s.responses ++ [q] } ∧
    (∀ r : Fin 8, q.getLsbD (7 - r.val) = (readH s.tables r).getLsbD p) ∧
    (∀ (k : Nat) (x : Byte), p = 8 + k →
      exec (.enc (1#8 <<< k) x) s = .next { s with responses := s.responses ++ [q] }) ∧
    (WfColumns s.tables → ∀ i : Fin 16, p = 15 - i.val → q = readD s.tables i)

/-- R57: for tables whose fingerprints are the columns, the conditions R55 to R57 together are minimum distance 5. -/
def Obligations.ConditionsMeanDistanceFive : Prop :=
  ∀ t : Tables, WfColumns t → ((WfDistinct t ∧ WfPairs t ∧ WfSeparate t) ↔ DistanceFive t)

/-! ## ENC and SYN -/

/-- R60: for every data byte and every value of the ignored field ENC answers one byte, whose bit `7 - r` says whether
the number of set bits of `Hhi[r] & d` is odd; nothing else changes. -/
def Obligations.EncRespondsTheParityOfEachRow : Prop :=
  ∀ (d : Byte) (s : State), ∃ p : Byte,
    (∀ r : Fin 8, p.getLsbD (7 - r.val) = (popcount (highByte (readH s.tables r) &&& d) % 2 == 1)) ∧
    ∀ x : Byte, exec (.enc d x) s = .next { s with responses := s.responses ++ [p] }

/-- R65: for every word SYN answers one byte, whose bit `7 - r` says whether the number of set bits of `H[r] & w` is
odd; nothing else changes. -/
def Obligations.SynRespondsTheParityOfEachRow : Prop :=
  ∀ (w : Word16) (s : State), ∃ q : Byte,
    (∀ r : Fin 8, q.getLsbD (7 - r.val) = (popcount (readH s.tables r &&& w) % 2 == 1)) ∧
    exec (.syn w) s = .next { s with responses := s.responses ++ [q] }

/-- R86, at every width: parity is popcount mod 2, zero on zero, additive over XOR, and so is a masked parity. -/
def Obligations.ParityIsAdditive : Prop :=
  ∀ (n : Nat) (a b m : BitVec n),
    parity a = (popcount a % 2 == 1) ∧ parity (0#n) = false ∧
    parity (a ^^^ b) = (parity a ^^ parity b) ∧
    parity (m &&& (a ^^^ b)) = (parity (m &&& a) ^^ parity (m &&& b))

/-- R87, for any tables: SYN and ENC are linear over XOR, the syndrome splits into its two bytes, zero gives zero, and
`SYN(w)` is the XOR of `SYN(e(p))` over the set bits of `w`. -/
def Obligations.SyndromeAndEncoderAreLinear : Prop :=
  ∀ t : Tables,
    (∀ x y : Word16, syn t (x ^^^ y) = syn t x ^^^ syn t y) ∧
    (∀ a b : Byte, enc t (a ^^^ b) = enc t a ^^^ enc t b) ∧
    (∀ d q : Byte, syn t (codeword d q) = enc t d ^^^ syn t (codeword 0x00#8 q)) ∧
    syn t 0x0000#16 = 0x00#8 ∧ enc t 0x00#8 = 0x00#8 ∧
    ∀ w : Word16, syn t w =
      (List.range 16).foldl (fun acc p => if w.getLsbD p then acc ^^^ syn t (bitWord p) else acc) 0x00#8

/-- R89, for any tables: ENC of zero, SYN of zero and DEC of zero answer zero. -/
def Obligations.ZeroGivesZero : Prop :=
  ∀ (s : State) (x : Byte),
    exec (.enc 0x00#8 x) s = .next { s with responses := s.responses ++ [0x00#8] } ∧
    exec (.syn 0x0000#16) s = .next { s with responses := s.responses ++ [0x00#8] } ∧
    exec (.dec 0x0000#16) s = .next { s with responses := s.responses ++ [0x00#8] }

/-- R96: ENC of `0xFF` answers the parity of each row's high byte, the codeword decodes to `0xFF` when the tables are
consistent, and for REF the value is `0x08`. -/
def Obligations.AllOnesByteEncodes : Prop :=
  (∀ (s : State) (x : Byte), ∃ p : Byte,
    exec (.enc 0xFF#8 x) s = .next { s with responses := s.responses ++ [p] } ∧
    (∀ r : Fin 8, p.getLsbD (7 - r.val) = parity (highByte (readH s.tables r))) ∧
    (WfConsistent s.tables →
      exec (.dec (codeword 0xFF#8 p)) s = .next { s with responses := s.responses ++ [0xFF#8] })) ∧
  enc refTables 0xFF#8 = 0x08#8 ∧ dec refTables 0xFF08#16 = 0xFF#8

/-- R67: on a valid codeword with error pattern `x` the syndrome is that of `x`; the error goes undetected exactly when
every check sees an even number of flipped bits, and DEC then answers the received high byte. -/
def Obligations.UndetectedErrorsAreTheEvenOnes : Prop :=
  ∀ (s : State) (c x : Word16), syn s.tables c = 0x00#8 →
    syn s.tables (c ^^^ x) = syn s.tables x ∧
    (syn s.tables (c ^^^ x) = 0x00#8 ↔ ∀ r : Fin 8, popcount (readH s.tables r &&& x) % 2 = 0) ∧
    (syn s.tables x = 0x00#8 →
      exec (.dec (c ^^^ x)) s = .next { s with responses := s.responses ++ [highByte (c ^^^ x)] })

/-! ## COR -/

/-- R71, for any tables: the first index whose fingerprint equals the syndrome decides; a data position flips its bit, a
parity position flips nothing. -/
def Obligations.CorFirstSingleMatchDecides : Prop :=
  ∀ (d q : Byte) (s : State) (i : Fin 16), readD s.tables i = q → (∀ k < i, readD s.tables k ≠ q) →
    exec (.cor d q) s = .next { s with responses := s.responses ++
      [if i.val < 8 then d ^^^ (1#8 <<< (7 - i.val)) else d] }

/-- R72 and R75, for any tables: with no single match every matching pair `i <= j` is applied, so data bit `7 - k` is
flipped exactly when an odd number of matching pairs name index `k`. (For syndrome `0x00` this is the literal
algorithm's value, log entry 6.) -/
def Obligations.CorAppliesEveryMatchingPair : Prop :=
  ∀ (d q : Byte) (s : State), (∀ i, readD s.tables i ≠ q) → ∃ c : Byte,
    exec (.cor d q) s = .next { s with responses := s.responses ++ [c] } ∧
    ∀ k : Fin 16, k.val < 8 → c.getLsbD (7 - k.val) = (d.getLsbD (7 - k.val) ^^
      ((Finset.univ.filter fun p : Fin 16 × Fin 16 =>
        p.1 ≤ p.2 ∧ readD s.tables p.1 ^^^ readD s.tables p.2 = q ∧ (p.1 = k ∨ p.2 = k)).card % 2 == 1))

/-- R73, for any tables: with neither a single nor a double match the data byte is the response, unmodified. -/
def Obligations.CorLeavesUnmatchedByteAlone : Prop :=
  ∀ (d q : Byte) (s : State), (∀ i, readD s.tables i ≠ q) →
    (∀ i j : Fin 16, i ≤ j → readD s.tables i ^^^ readD s.tables j ≠ q) →
    exec (.cor d q) s = .next { s with responses := s.responses ++ [d] }

/-- The closed form of R70, for any tables and any syndrome: the literal loops equal one XOR with FLIP, which does not
depend on the data byte; so COR with the same syndrome undoes itself. -/
def Obligations.CorIsOneXorWithFlip : Prop :=
  ∀ (d q : Byte) (s : State),
    exec (.cor d q) s = .next { s with responses := s.responses ++ [d ^^^ flipMask s.tables q] } ∧
    exec (.cor (d ^^^ flipMask s.tables q) q) s = .next { s with responses := s.responses ++ [d] }

/-- R75: under WF_PAIRS, for a nonzero syndrome that no fingerprint equals, a matching pair alone gives the result. -/
def Obligations.CorPairIsWholeWhenPairsAreUnique : Prop :=
  ∀ (d q : Byte) (s : State) (i j : Fin 16), WfPairs s.tables → q ≠ 0x00#8 → (∀ k, readD s.tables k ≠ q) →
    i < j → readD s.tables i ^^^ readD s.tables j = q →
    exec (.cor d q) s = .next { s with responses := s.responses ++ [d ^^^ indexMask i ^^^ indexMask j] }

/-- R88, for any tables: COR is an XOR with a mask that depends on the syndrome only, and permuting `D[8..15]` among
themselves changes neither FLIP nor COR nor DEC. -/
def Obligations.CorrectionBlindToParityOrder : Prop :=
  (∀ (t : Tables) (d q : Byte), cor t d q = d ^^^ flipMask t q) ∧
  ∀ (t t' : Tables) (σ : Equiv.Perm (Fin 16)), (∀ i : Fin 16, i.val < 8 → σ i = i) → t'.h = t.h →
    (∀ i, readD t' i = readD t (σ i)) →
    (∀ q, flipMask t' q = flipMask t q) ∧ (∀ d q, cor t' d q = cor t d q) ∧ ∀ w, dec t' w = dec t w

/-! ## DEC and the properties of the codec -/

/-- R80 and R92: when SYN answers zero DEC answers the high byte unchanged; otherwise DEC answers what COR answers on
the high byte and that syndrome. -/
def Obligations.DecPassesThroughOrCorrects : Prop :=
  ∀ (w : Word16) (s : State), ∃ q rsp : Byte,
    exec (.syn w) s = .next { s with responses := s.responses ++ [q] } ∧
    exec (.dec w) s = .next { s with responses := s.responses ++ [rsp] } ∧
    (q = 0x00#8 → ∀ k < 8, rsp.getLsbD k = w.getLsbD (8 + k)) ∧
    (q ≠ 0x00#8 → exec (.cor (w.extractLsb' 8 8) q) s = .next { s with responses := s.responses ++ [rsp] })

/-- R90: under WF_CONSISTENT an encoded byte decodes to itself. -/
def Obligations.RoundTripWithoutErrors : Prop :=
  ∀ (s : State) (b : Byte), WfConsistent s.tables →
    exec (.dec (codeword b (enc s.tables b))) s = .next { s with responses := s.responses ++ [b] }

/-- R91: under WF_CONSISTENT the encoded words have syndrome zero and are closed under XOR, and the syndrome of a
received word is that of its error pattern. -/
def Obligations.SyndromeSeesOnlyTheError : Prop :=
  ∀ t : Tables, WfConsistent t →
    (∀ b : Byte, syn t (codeword b (enc t b)) = 0x00#8) ∧
    (∀ a b : Byte, codeword a (enc t a) ^^^ codeword b (enc t b) = codeword (a ^^^ b) (enc t (a ^^^ b))) ∧
    ∀ (b : Byte) (x : Word16), syn t (codeword b (enc t b) ^^^ x) = syn t x

/-- R93: under WF_CONSISTENT, WF_COLUMNS and WF_DISTINCT every single-bit error, at all 16 positions, is corrected. -/
def Obligations.SingleBitErrorsAreCorrected : Prop :=
  ∀ (s : State) (b : Byte) (p : Nat), CorrectsOne s.tables → p < 16 →
    exec (.dec (codeword b (enc s.tables b) ^^^ bitWord p)) s = .next { s with responses := s.responses ++ [b] }

/-- R94: under all five conditions every two-bit error is corrected. -/
def Obligations.DoubleBitErrorsAreCorrected : Prop :=
  ∀ (s : State) (b : Byte) (p q : Nat), CorrectsTwo s.tables → p < 16 → q < 16 → p ≠ q →
    exec (.dec (codeword b (enc s.tables b) ^^^ bitWord p ^^^ bitWord q)) s =
      .next { s with responses := s.responses ++ [b] }

/-- R95: what DEC answers for any error pattern on an encoded word, and when that is the byte sent. -/
def Obligations.DecOutcomeForAnyError : Prop :=
  ∀ (s : State) (b : Byte) (x : Word16), WfConsistent s.tables → ∃ rsp : Byte,
    exec (.dec (codeword b (enc s.tables b) ^^^ x)) s = .next { s with responses := s.responses ++ [rsp] } ∧
    (syn s.tables x ≠ 0x00#8 → rsp = (b ^^^ highByte x) ^^^ flipMask s.tables (syn s.tables x)) ∧
    (syn s.tables x = 0x00#8 → rsp = b ^^^ highByte x) ∧
    (rsp = b ↔ (syn s.tables x ≠ 0x00#8 ∧ flipMask s.tables (syn s.tables x) = highByte x) ∨
      (syn s.tables x = 0x00#8 ∧ highByte x = 0x00#8))

/-! ## The host's streams (duties of the host, log entry 11) -/

/-- R25: encoding doubles the length, decoding halves it, output `k` comes from input bytes `2k` and `2k + 1`, and a
trailing odd byte changes nothing. -/
def Obligations.StreamLengthsAndPositions : Prop :=
  ∀ (t : Tables) (message stream : List Byte),
    (encodeStream t message).length = 2 * message.length ∧
    (decodeStream t stream).length = stream.length / 2 ∧
    (∀ k b p, stream[2 * k]? = some b → stream[2 * k + 1]? = some p →
      (decodeStream t stream)[k]? = some (dec t (codeword b p))) ∧
    ∀ last : Byte, stream.length % 2 = 0 → decodeStream t (stream ++ [last]) = decodeStream t stream

/-- R23, R24 and R90 together: under WF_CONSISTENT, decoding an encoded stream gives the message back. -/
def Obligations.StreamRoundTrip : Prop :=
  ∀ (t : Tables) (message : List Byte), WfConsistent t → decodeStream t (encodeStream t message) = message

/-- The codec end to end: under all five conditions, when every codeword of an encoded message suffers at most two bit
errors, a machine given one DEC request per received codeword answers exactly the message. -/
def Obligations.MessageSurvivesTwoErrorsPerCodeword : Prop :=
  ∀ (t : Tables) (message : List Byte) (errors : List Word16), CorrectsTwo t → errors.length = message.length →
    (∀ x ∈ errors, popcount x ≤ 2) →
    core.run message.length
      { tables := t, responses := [],
        requests := (List.zipWith (· ^^^ ·) (codewordsOf (encodeStream t message)) errors).map
          fun w => encode (.dec w) } =
      .next { tables := t, requests := [], responses := message }
end

