-- ==== Sys2Proof/Laws/Ops.lean ====
section
/-! SUPPORT. What the shared operations do, bit by bit, said once. -/

namespace Sys2Proof.Machine

@[simp] theorem parityBelow_zero {w : Nat} (v : BitVec w) : parityBelow v 0 = false := rfl
@[simp] theorem parityBelow_succ {w : Nat} (v : BitVec w) (n : Nat) :
    parityBelow v (n + 1) = (parityBelow v n ^^ v.getLsbD n) := rfl
@[simp] theorem popcountBelow_zero {w : Nat} (v : BitVec w) : popcountBelow v 0 = 0 := rfl
@[simp] theorem popcountBelow_succ {w : Nat} (v : BitVec w) (n : Nat) :
    popcountBelow v (n + 1) = popcountBelow v n + (v.getLsbD n).toNat := rfl

theorem mem_rowIndices (r : Fin 8) : r ∈ rowIndices := by revert r; decide
theorem mem_tableIndices (i : Fin 16) : i ∈ tableIndices := by revert i; decide
theorem tableIndices_nodup : tableIndices.Nodup := by decide

/-- The scan order is the order of the indices. -/
theorem tableIndices_sorted : tableIndices.Pairwise (· < ·) := by decide

theorem mem_indicesFrom (i j : Fin 16) : j ∈ indicesFrom i ↔ i ≤ j := by
  simp [indicesFrom, mem_tableIndices]

/-- The row loop, whole: output bit `7 - r` is the check of row `r`. -/
theorem rowChecks_getLsbD (odd : Fin 8 → Bool) (r : Fin 8) : (rowChecks odd).getLsbD (7 - r.val) = odd r := by
  have key : ∀ c0 c1 c2 c3 c4 c5 c6 c7 : Bool, ∀ r : Fin 8,
      (rowChecks ![c0, c1, c2, c3, c4, c5, c6, c7]).getLsbD (7 - r.val) = ![c0, c1, c2, c3, c4, c5, c6, c7] r := by
    decide +kernel
  have e : odd = ![odd 0, odd 1, odd 2, odd 3, odd 4, odd 5, odd 6, odd 7] := by
    funext k; fin_cases k <;> rfl
  rw [e]; exact key _ _ _ _ _ _ _ _ r

/-- A byte is determined by its eight check bits. -/
theorem byte_eq_of_rows {a b : Byte} (h : ∀ r : Fin 8, a.getLsbD (7 - r.val) = b.getLsbD (7 - r.val)) : a = b := by
  apply BitVec.eq_of_getLsbD_eq
  intro i hi
  have := h ⟨7 - i, by omega⟩
  rwa [show 7 - (7 - i) = i by omega] at this

theorem getLsbD_highByte (w : Word16) (k : Nat) (hk : k < 8) : (highByte w).getLsbD k = w.getLsbD (8 + k) := by
  simp [highByte, hk]

theorem getLsbD_lowByte (w : Word16) (k : Nat) (hk : k < 8) : (lowByte w).getLsbD k = w.getLsbD k := by
  simp [lowByte, hk]

@[simp] theorem highByte_codeword (d q : Byte) : highByte (codeword d q) = d := by
  apply BitVec.eq_of_getLsbD_eq; intro i hi
  rw [getLsbD_highByte _ _ hi, codeword, BitVec.getLsbD_append]; simp

@[simp] theorem lowByte_codeword (d q : Byte) : lowByte (codeword d q) = q := by
  apply BitVec.eq_of_getLsbD_eq; intro i hi
  rw [getLsbD_lowByte _ _ hi, codeword, BitVec.getLsbD_append]; simp [hi]

theorem highByte_xor (x y : Word16) : highByte (x ^^^ y) = highByte x ^^^ highByte y := by
  apply BitVec.eq_of_getLsbD_eq; intro i hi
  simp [getLsbD_highByte _ _ hi]

end Sys2Proof.Machine
end

