-- ==== Sys2Proof/Laws/Corrector.lean ====
section
/-! SUPPORT. What the parts of the Corrector do: a flip is an XOR with the index's mask, and the single-match scan finds
the least matching index. -/

namespace Sys2Proof.Machine

/-- Flipping at a table index is one XOR with its mask. -/
theorem flipAt_eq_xor (i : Fin 16) (d : Byte) : flipAt i d = d ^^^ indexMask i := by
  unfold flipAt indexMask flip; split <;> simp

/-- One pair of step 2 is one XOR, with zero when the pair does not match. -/
theorem applyPair_eq_xor (t : Tables) (s : Byte) (i j : Fin 16) (d : Byte) :
    applyPair t s i j d = d ^^^ (if readD t i ^^^ readD t j = s then
      indexMask i ^^^ (if i ≠ j then indexMask j else 0x00#8) else 0x00#8) := by
  unfold applyPair
  split
  · split <;> simp [flipAt_eq_xor, BitVec.xor_assoc]
  · simp

/-- The scan of step 1 finds nothing exactly when no fingerprint equals the syndrome. -/
theorem singleMatch_eq_none (t : Tables) (s : Byte) : singleMatch t s = none ↔ ∀ i, readD t i ≠ s := by
  simp [singleMatch, List.find?_eq_none, mem_tableIndices]

/-- The scan of step 1 finds the least index whose fingerprint equals the syndrome. -/
theorem singleMatch_eq_some (t : Tables) (s : Byte) (i : Fin 16) :
    singleMatch t s = some i ↔ readD t i = s ∧ ∀ k < i, readD t k ≠ s := by
  have sorted := tableIndices_sorted
  constructor
  · intro h
    obtain ⟨hi, as, bs, hsplit, hbefore⟩ := List.find?_eq_some_iff_append.mp h
    refine ⟨by simpa using hi, fun k hk => ?_⟩
    have hmem := mem_tableIndices k
    rw [hsplit] at hmem sorted
    rcases List.mem_append.mp hmem with hin | hin
    · simpa using hbefore k hin
    · rcases List.mem_cons.mp hin with rfl | hin
      · exact absurd hk (lt_irrefl _)
      · have := List.rel_of_pairwise_cons (List.pairwise_append.mp sorted).2.1 hin
        exact absurd hk (lt_asymm this)
  · rintro ⟨hi, hbefore⟩
    cases h : singleMatch t s with
    | none => exact absurd hi ((singleMatch_eq_none t s).mp h i)
    | some j =>
      have hj : readD t j = s := by simpa using List.find?_some h
      rcases lt_trichotomy j i with hlt | rfl | hgt
      · exact absurd hj (hbefore j hlt)
      · rfl
      · exfalso
        obtain ⟨_, as, bs, hsplit, hno⟩ := List.find?_eq_some_iff_append.mp h
        have hmem := mem_tableIndices i
        rw [hsplit] at hmem sorted
        rcases List.mem_append.mp hmem with hin | hin
        · simpa [hi] using hno i hin
        · rcases List.mem_cons.mp hin with rfl | hin
          · exact lt_irrefl _ hgt
          · exact lt_asymm hgt (List.rel_of_pairwise_cons (List.pairwise_append.mp sorted).2.1 hin)

end Sys2Proof.Machine
end

