-- ==== Sys2Proof/Laws/Decode.lean ====
section
/-! SUPPORT. The fields of a request word, bit by bit, and the fields of an encoded instruction. -/

namespace Sys2Proof

theorem Request.getLsbD_aHi (req : Request) (k : Nat) (hk : k < 8) :
    (Request.aHi req).getLsbD k = req.getLsbD (8 + k) := by simp [Request.aHi, hk]

theorem Request.getLsbD_aLo (req : Request) (k : Nat) (hk : k < 8) :
    (Request.aLo req).getLsbD k = req.getLsbD k := by simp [Request.aLo, hk]

theorem Request.getLsbD_operand (req : Request) (k : Nat) (hk : k < 16) :
    (Request.operand req).getLsbD k = req.getLsbD k := by simp [Request.operand, hk]

/-- The `op` field is bits 17 and 16. -/
theorem Request.op_eq_bits (req : Request) :
    Request.op req = BitVec.ofBool (req.getLsbD 17) ++ BitVec.ofBool (req.getLsbD 16) := by
  apply BitVec.eq_of_getLsbD_eq
  intro i hi
  rw [BitVec.getLsbD_append, Request.op, BitVec.getLsbD_extractLsb']
  rcases (by omega : i = 0 ∨ i = 1) with rfl | rfl <;> simp

theorem Request.op_encode (i : Instr) : Request.op (encode i) = i.opcode := by
  apply BitVec.eq_of_getLsbD_eq
  intro k hk
  rw [Request.op, BitVec.getLsbD_extractLsb', encode, BitVec.getLsbD_append]
  simp [hk]

theorem Request.operand_encode (i : Instr) : Request.operand (encode i) = i.operandField := by
  apply BitVec.eq_of_getLsbD_eq
  intro k hk
  rw [Request.getLsbD_operand _ _ hk, encode, BitVec.getLsbD_append]
  simp [hk]

/-- The two operand bytes are the two halves of the operand field. -/
theorem Request.bytes_of_operand (req : Request) : Request.aHi req ++ Request.aLo req = Request.operand req := by
  apply BitVec.eq_of_getLsbD_eq
  intro k hk
  rw [BitVec.getLsbD_append, Request.getLsbD_operand _ _ hk]
  split
  · exact Request.getLsbD_aLo req k ‹_›
  · rw [Request.getLsbD_aHi req (k - 8) (by omega)]; congr 1; omega

end Sys2Proof
end

