-- ==== Sys2Proof/Laws/PerInstr.lean ====
section
/-! SUPPORT. The family TableRow: the word of every instruction matches the opcode-table row of its mnemonic. -/

namespace Sys2Proof.Laws

/-- The encoding of `i` matches the row of the opcode table (spec 30_encoding.md section 3) that bears its mnemonic. -/
def TableRow.Statement (i : Instr) : Prop :=
  ∃ row ∈ opcodeTable, row.mnemonic = i.mnemonic ∧ row.selects (encode i) = true

/-- Masking a word with `0x30000` leaves its `op` field alone. -/
theorem encode_mask (i : Instr) : encode i &&& 0x30000#18 = i.opcode ++ 0x0000#16 := by
  have h : (0x30000#18 : Request) = 0b11#2 ++ 0x0000#16 := by decide
  have ones : (0b11#2 : BitVec 2) = BitVec.allOnes 2 := by decide
  rw [h, encode, BitVec.and_append, ones, BitVec.and_allOnes, BitVec.and_zero]

/-- A row selects the word of an instruction when its mask is `0x30000` and its pattern is that `op` field. -/
theorem selects_encode {i : Instr} {mnemonic : String} {pattern : Request}
    (h : i.opcode ++ 0x0000#16 = pattern) : OpcodeRow.selects ⟨mnemonic, 0x30000#18, pattern⟩ (encode i) = true := by
  rw [OpcodeRow.selects, encode_mask, h, beq_self_eq_true]

theorem TableRow.enc (d x : Byte) : TableRow.Statement (.enc d x) :=
  ⟨⟨"ENC", 0x30000#18, 0x00000#18⟩, by simp [opcodeTable], rfl,
    selects_encode (by show 0b00#2 ++ 0x0000#16 = _; decide)⟩

theorem TableRow.syn (w : Word16) : TableRow.Statement (.syn w) :=
  ⟨⟨"SYN", 0x30000#18, 0x10000#18⟩, by simp [opcodeTable], rfl,
    selects_encode (by show 0b01#2 ++ 0x0000#16 = _; decide)⟩

theorem TableRow.cor (d s : Byte) : TableRow.Statement (.cor d s) :=
  ⟨⟨"COR", 0x30000#18, 0x20000#18⟩, by simp [opcodeTable], rfl,
    selects_encode (by show 0b10#2 ++ 0x0000#16 = _; decide)⟩

theorem TableRow.dec (w : Word16) : TableRow.Statement (.dec w) :=
  ⟨⟨"DEC", 0x30000#18, 0x30000#18⟩, by simp [opcodeTable], rfl,
    selects_encode (by show 0b11#2 ++ 0x0000#16 = _; decide)⟩

end Sys2Proof.Laws
end

