-- ==== Sys2Proof/Laws/State.lean ====
section
/-! SUPPORT. One lemma per field per update of the state, so that no proof unfolds a record update. -/

namespace Sys2Proof.Machine

@[simp] theorem State.answer_tables (s : State) (b : Byte) : (s.answer b).tables = s.tables := rfl
@[simp] theorem State.answer_requests (s : State) (b : Byte) : (s.answer b).requests = s.requests := rfl
@[simp] theorem State.answer_responses (s : State) (b : Byte) : (s.answer b).responses = s.responses ++ [b] := rfl

@[simp] theorem State.present_tables (s : State) (req : Request) : (s.present req).tables = s.tables := rfl
@[simp] theorem State.present_requests (s : State) (req : Request) :
    (s.present req).requests = req :: s.requests := rfl
@[simp] theorem State.present_responses (s : State) (req : Request) : (s.present req).responses = s.responses := rfl

@[simp] theorem State.reset_tables : State.reset.tables = refTables := rfl
@[simp] theorem State.reset_requests : State.reset.requests = [] := rfl
@[simp] theorem State.reset_responses : State.reset.responses = [] := rfl

/-- Fetching finds nothing exactly when no request is presented. -/
theorem State.fetch_eq_none (s : State) : s.fetch = none ↔ s.requests = [] := by
  unfold State.fetch; cases s.requests <;> simp

/-- Everything a fetch can do: it takes the oldest request and leaves the rest of the state alone. -/
theorem State.fetch_eq_some (s s' : State) (req : Request) :
    s.fetch = some (req, s') ↔
      ∃ rest, s.requests = req :: rest ∧
        s' = { tables := s.tables, requests := rest, responses := s.responses } := by
  cases h : s.requests with
  | nil => simp [State.fetch, h]
  | cons r rest => simp only [State.fetch, h, Option.some.injEq, Prod.mk.injEq, List.cons.injEq]; grind

/-- Presenting a request and fetching gives it back, with the state as it was. -/
@[simp] theorem State.fetch_present (s : State) (req : Request) : (s.present req).fetch = some (req, s) := rfl

end Sys2Proof.Machine
end

