-- ==== Sys2Proof/Laws/Step.lean ====
section
/-! SUPPORT. Everything an operation and a step can do, said once. -/

namespace Sys2Proof.Machine

/-- Every operation answers one byte, a function of the tables, and does nothing else. -/
theorem exec_answers (i : Instr) : ∃ result : Tables → Byte, ∀ s, exec i s = .next (s.answer (result s.tables)) := by
  cases i with
  | enc d x => exact ⟨fun t => enc t d, fun _ => rfl⟩
  | syn w => exact ⟨fun t => syn t w, fun _ => rfl⟩
  | cor d q => exact ⟨fun t => cor t d q, fun _ => rfl⟩
  | dec w => exact ⟨fun t => dec t w, fun _ => rfl⟩

/-- Everything a step can do: stay, with nothing presented; or take the oldest request and run it. -/
theorem step_cases (s : State) :
    (s.requests = [] ∧ step s = .next s) ∨
    ∃ req rest, s.requests = req :: rest ∧
      step s = exec (decode req) { tables := s.tables, requests := rest, responses := s.responses } := by
  rcases s with ⟨t, requests, responses⟩
  cases requests with
  | nil => exact .inl ⟨rfl, rfl⟩
  | cons req rest => exact .inr ⟨req, rest, rfl, rfl⟩

/-- A run of `n + 1` steps that goes on is a step and a run of `n`. -/
theorem run_succ_of_next {n : Nat} {s s' : State} (h : step s = .next s') :
    Sys2Proof.core.run (n + 1) s = Sys2Proof.core.run n s' := by
  have h' : Sys2Proof.core.step s = .next s' := h
  simp only [Host.Core.run, h']

end Sys2Proof.Machine
end

