-- ==== Sys2Proof/Tests/Slice0.lean ====
section
/-! SUPPORT. The model's own tests. Words are written out from 30_encoding.md; expected values are those of
95_test_vectors.md (REF, T1, T2, T3) and of the worked examples of files 41 to 44. Then one witness per statement that has
hypotheses. -/

namespace Sys2Proof.Tests

open Sys2Proof.Machine

/-! ## Well-formedness and decoding -/

/-- The assembler's form refuses a nonzero ignored field (R40); the request is legal all the same (R39). -/
theorem test_assembled_refuses_nonzero_ignored_field : (Instr.enc 0xA5#8 0xFF#8).assembled = false := by decide
theorem test_nonzero_ignored_field_is_legal : (Instr.enc 0xA5#8 0xFF#8).wellFormed = true := by decide
theorem test_no_operation_is_ill_formed :
    (Instr.cor 0x25#8 0x00#8).wellFormed = true ∧ (Instr.syn 0xFFFF#16).wellFormed = true ∧
    (Instr.dec 0xFFFF#16).wellFormed = true := by decide

theorem test_decode_enc : decode 0b001010010100000000#18 = .enc 0xA5#8 0x00#8 := by decide
theorem test_decode_syn : decode 0b011010010100011100#18 = .syn 0xA51C#16 := by decide
theorem test_decode_cor : decode 0b100010010100001111#18 = .cor 0x25#8 0x0F#8 := by decide
theorem test_decode_dec : decode 0b110010010100011100#18 = .dec 0x251C#16 := by decide
theorem test_encode_is_the_printed_word :
    encode (.enc 0xA5#8 0x00#8) = 0x0A500#18 ∧ encode (.syn 0xA51C#16) = 0x1A51C#18 ∧
    encode (.cor 0x25#8 0x0F#8) = 0x2250F#18 ∧ encode (.dec 0x251C#16) = 0x3251C#18 := by decide
theorem test_table_word : decodeTableWord 24 0x2250F = some (.cor 0x25#8 0x0F#8) := by decide
theorem test_too_wide_number_rejected_by_name : decodeNat 0x40000 = .error .widerThanRequest := by rfl

theorem test_assembler_reads_the_example : assemble
    ['C', 'O', 'R', ' ', '0', 'x', '2', '5', ',', ' ', '0', 'x', '0', 'F', ' ', ';'] = some (.cor 0x25#8 0x0F#8) := by
  decide
theorem test_request_text : requestText 0x3A51C#18 = ['0', 'x', '3', 'A', '5', '1', 'C'] := by decide

/-! ## One step on REF -/

/-- REF with one request presented. -/
def presented (req : Request) : State := State.reset.present req

/-- REF with one response delivered. -/
def answered (rsp : Byte) : State := State.reset.answer rsp

/-- The next state of an outcome, comparable by decide. -/
def nextOf : Result → Option State
  | .next s => some s
  | .fault _ => none
  | .refused _ => none

theorem eq_next_of_nextOf {o : Result} {s : State} (h : nextOf o = some s) : o = .next s := by
  cases o <;> simp_all [nextOf]

theorem test_enc_worked_example : nextOf (step (presented 0x0A500#18)) = some (answered 0x1C#8) := by decide +kernel
theorem test_enc_ignored_field : nextOf (step (presented 0x0A5FF#18)) = some (answered 0x1C#8) := by decide +kernel
theorem test_syn_worked_example : nextOf (step (presented 0x1251C#18)) = some (answered 0x0F#8) := by decide +kernel
theorem test_syn_swapped_bytes : nextOf (step (presented 0x11CA5#18)) = some (answered 0xF2#8) := by decide +kernel
theorem test_cor_pair_of_data_and_parity : nextOf (step (presented 0x2A4EC#18)) = some (answered 0xA5#8) := by decide +kernel
theorem test_dec_miscorrects_silently : nextOf (step (presented 0x3A55A#18)) = some (answered 0xA0#8) := by decide +kernel
theorem test_dec_corrects_a_fetched_word : nextOf (step (State.reset.withFetchWord 24 0x3251C)) = some (answered 0xA5#8) := by decide +kernel

/-! ## The toy tables of 95_test_vectors.md section 5 (COR reads only `TABLE_D`) -/

/-- T1: WF_PAIRS fails. -/
def toyPairs : Tables where
  h := Vector.replicate 8 0
  d := #v[0x01#8, 0x02#8, 0x04#8, 0x07#8, 0x10#8, 0x20#8, 0x40#8, 0x80#8,
          0x18#8, 0x28#8, 0x48#8, 0x88#8, 0x50#8, 0x60#8, 0x90#8, 0xA0#8]

/-- T2: WF_DISTINCT fails. -/
def toyDuplicates : Tables where
  h := Vector.replicate 8 0
  d := #v[0x01#8, 0x02#8, 0x02#8, 0x08#8, 0x10#8, 0x20#8, 0x40#8, 0x80#8,
          0x0C#8, 0x14#8, 0x24#8, 0x44#8, 0x84#8, 0x18#8, 0x28#8, 0x48#8]

/-- Every matching pair is applied (T1); the first single match wins; a bit named twice is flipped back; the literal
value for syndrome zero (T2). -/
theorem test_cor_is_the_literal_algorithm :
    cor toyPairs 0x00#8 0x03#8 = 0xF0#8 ∧ cor toyDuplicates 0x00#8 0x02#8 = 0x40#8 ∧
    cor toyDuplicates 0x00#8 0x03#8 = 0x60#8 ∧ cor toyDuplicates 0x00#8 0x00#8 = 0x9F#8 := by decide +kernel

/-! ## The host's streams: program P1 and P2 -/

theorem test_encode_stream :
    encodeStream refTables [0x48#8, 0x69#8, 0x21#8] = [0x48#8, 0xA5#8, 0x69#8, 0x1D#8, 0x21#8, 0xB8#8] := by
  decide +kernel
theorem test_decode_stream_drops_odd_byte :
    decodeStream refTables [0x4C#8, 0xA5#8, 0x69#8, 0x0D#8, 0xA1#8, 0xBA#8, 0x11#8] = [0x48#8, 0x69#8, 0x21#8] := by
  decide +kernel

/-! ## Witnesses: REF meets the conditions -/

theorem ref_consistent : WfConsistent refTables := by decide +kernel
theorem ref_columns : WfColumns refTables := by decide +kernel
theorem ref_distinct : WfDistinct refTables := by decide +kernel
theorem ref_separate : WfSeparate refTables := by decide +kernel
theorem ref_identity_low_bytes : IdentityLowBytes refTables := by decide +kernel

theorem ref_pairs : WfPairs refTables := by
  have once : ∀ i j : Fin 16, i < j → ∀ k l : Fin 16, k < l →
      readD refTables k ^^^ readD refTables l = readD refTables i ^^^ readD refTables j → i = k ∧ j = l := by
    decide +kernel
  intro s _ i j k l hij hkl h1 h2
  exact once i j hij k l hkl (h2.trans h1.symm)

theorem ref_correctsOne : CorrectsOne refTables := ⟨ref_consistent, ref_columns, ref_distinct⟩
theorem ref_correctsTwo : CorrectsTwo refTables := ⟨ref_correctsOne, ref_pairs, ref_separate⟩

theorem ref_independent : IndependentHighBytes refTables := by
  have all : ∀ c0 c1 c2 c3 c4 c5 c6 c7 : Bool,
      rowIndices.foldl (fun acc r => if ![c0, c1, c2, c3, c4, c5, c6, c7] r
        then acc ^^^ highByte (readH refTables r) else acc) 0x00#8 = 0x00#8 →
      ∀ r, ![c0, c1, c2, c3, c4, c5, c6, c7] r = false := by decide +kernel
  intro c
  have e : c = ![c 0, c 1, c 2, c 3, c 4, c 5, c 6, c 7] := by
    funext k; fin_cases k <;> rfl
  rw [e]; exact all _ _ _ _ _ _ _ _

/-! ## Witnesses: hypotheses that can be met, clause by clause -/

/-- A legal state with two requests pending and one response delivered. -/
def busy : State where
  tables := refTables
  requests := [0x0A500#18, 0x3251C#18]
  responses := [0x48#8]

theorem witness_RequestFieldsSelectAndFeed :
    ((0x0A5FF#18).getLsbD 17 = false ∧ (0x0A5FF#18).getLsbD 16 = false) ∧
    ((0x1FFFF#18).getLsbD 17 = false ∧ (0x1FFFF#18).getLsbD 16 = true) ∧
    ((0x20000#18).getLsbD 17 = true ∧ (0x20000#18).getLsbD 16 = false) ∧
    ((0x3FFFF#18).getLsbD 17 = true ∧ (0x3FFFF#18).getLsbD 16 = true) := by decide
theorem witness_StepRunsTheDecodedRequest :
    busy.requests = 0x0A500#18 :: [0x3251C#18] ∧ State.reset.requests = [] := ⟨rfl, rfl⟩
theorem witness_PresentedNumberRunsNext : 0x3FFFF < 2 ^ 18 ∧ 0x3FFFF < 2 ^ 24 := by decide
theorem witness_ResponseIsTheSelectedUnitsOutput : busy.requests = 0x0A500#18 :: [0x3251C#18] := rfl
theorem witness_OperationsOnlyAddOneResponse :
    exec (.enc 0xA5#8 0xFF#8) busy = .next (busy.answer 0x1C#8) :=
  eq_next_of_nextOf (by decide +kernel)
theorem witness_ResultIgnoresHistory : busy.tables = State.reset.tables := rfl
theorem witness_NoRunChangesATable : ∃ f, Sys2Proof.core.run 2 busy = .next f :=
  ⟨{ tables := refTables, requests := [], responses := [0x48#8, 0x1C#8, 0xA5#8] },
    eq_next_of_nextOf (by decide +kernel)⟩
theorem witness_OrderOfRequestsCannotBeSeen :
    ∃ s' : State, busy.tables = s'.tables ∧ busy.requests ≠ s'.requests ∧ busy.responses ≠ s'.responses ∧
      busy.requests.Perm s'.requests :=
  ⟨⟨refTables, [0x3251C#18, 0x0A500#18], []⟩, rfl, by decide, by decide, List.Perm.swap ..⟩
theorem witness_EveryStepKeepsThePromisedResponses :
    (busy.tables = refTables ∧ busy.promised = [0x48#8, 0x1C#8, 0xA5#8]) ∧
    step busy = .next { busy with requests := [0x3251C#18], responses := [0x48#8, 0x1C#8] } := 
  ⟨⟨rfl, by decide +kernel⟩, eq_next_of_nextOf (by decide +kernel)⟩
theorem witness_ConsistencyRowByRow : WfConsistent refTables ∧ IdentityLowBytes refTables :=
  ⟨ref_consistent, ref_identity_low_bytes⟩
theorem witness_IdentityLowBytesAreForced : IndependentHighBytes refTables ∧ WfConsistent refTables :=
  ⟨ref_independent, ref_consistent⟩
theorem witness_TableEntriesShowInResults :
    WfColumns busy.tables ∧ (0 < 16 ∧ 0 = 15 - (15 : Fin 16).val) ∧
    (8 = 8 + 0 ∧ 8 = 15 - (7 : Fin 16).val) ∧ (15 = 8 + 7 ∧ 15 = 15 - (0 : Fin 16).val) :=
  ⟨ref_columns, by decide, by decide, by decide⟩
theorem witness_ConditionsMeanDistanceFive :
    WfColumns refTables ∧ WfDistinct refTables ∧ WfPairs refTables ∧ WfSeparate refTables :=
  ⟨ref_columns, ref_distinct, ref_pairs, ref_separate⟩
theorem witness_AllOnesByteEncodes : WfConsistent busy.tables := ref_consistent
theorem witness_UndetectedErrorsAreTheEvenOnes :
    syn busy.tables 0xA51C#16 = 0x00#8 ∧ syn busy.tables 0x0546#16 = 0x00#8 ∧ 0x0546#16 ≠ 0#16 := by
  decide +kernel

/-- The data position at the boundary, index 7, and the parity position at the boundary, index 8. -/
theorem witness_CorFirstSingleMatchDecides :
    (readD busy.tables 7 = 0xED#8 ∧ ∀ k < (7 : Fin 16), readD busy.tables k ≠ 0xED#8) ∧
    (readD busy.tables 8 = 0x80#8 ∧ ∀ k < (8 : Fin 16), readD busy.tables k ≠ 0x80#8) := by decide
theorem witness_CorAppliesEveryMatchingPair : ∀ i, readD toyPairs i ≠ 0x03#8 := by decide
theorem witness_CorLeavesUnmatchedByteAlone :
    (∀ i, readD busy.tables i ≠ 0x17#8) ∧
    ∀ i j : Fin 16, i ≤ j → readD busy.tables i ^^^ readD busy.tables j ≠ 0x17#8 := by decide +kernel
theorem witness_CorPairIsWholeWhenPairsAreUnique :
    WfPairs busy.tables ∧ 0x6D#8 ≠ 0x00#8 ∧ (∀ k, readD busy.tables k ≠ 0x6D#8) ∧ (7 : Fin 16) < 8 ∧
    readD busy.tables 7 ^^^ readD busy.tables 8 = 0x6D#8 := ⟨ref_pairs, by decide⟩

/-- REF with the fingerprints of indices 8 and 15 exchanged. -/
def swappedParity : Tables := { refTables with d := (refTables.d.set 8 0x01#8).set 15 0x80#8 }
theorem witness_CorrectionBlindToParityOrder :
    (∀ i : Fin 16, i.val < 8 → Equiv.swap (8 : Fin 16) 15 i = i) ∧ swappedParity.h = refTables.h ∧
    swappedParity ≠ refTables ∧ ∀ i, readD swappedParity i = readD refTables (Equiv.swap (8 : Fin 16) 15 i) := by
  decide +kernel
theorem witness_DecPassesThroughOrCorrects :
    exec (.syn 0xA51C#16) busy = .next (busy.answer 0x00#8) ∧ exec (.syn 0x251C#16) busy = .next (busy.answer 0x0F#8) :=
  ⟨eq_next_of_nextOf (by decide +kernel), eq_next_of_nextOf (by decide +kernel)⟩
theorem witness_RoundTripWithoutErrors : WfConsistent busy.tables := ref_consistent
theorem witness_SyndromeSeesOnlyTheError : WfConsistent refTables := ref_consistent
theorem witness_SingleBitErrorsAreCorrected : CorrectsOne busy.tables ∧ 0 < 16 ∧ 15 < 16 :=
  ⟨ref_correctsOne, by decide⟩
theorem witness_DoubleBitErrorsAreCorrected : CorrectsTwo busy.tables ∧ 15 < 16 ∧ 0 < 16 ∧ (15 : Nat) ≠ 0 :=
  ⟨ref_correctsTwo, by decide⟩
theorem witness_DecOutcomeForAnyError :
    WfConsistent busy.tables ∧ syn busy.tables 0xE000#16 ≠ 0x00#8 ∧ syn busy.tables 0x0546#16 = 0x00#8 :=
  ⟨ref_consistent, by decide +kernel⟩
theorem witness_StreamLengthsAndPositions :
    [0x48#8, 0xA5#8][2 * 0]? = some 0x48#8 ∧ [0x48#8, 0xA5#8][2 * 0 + 1]? = some 0xA5#8 ∧
    [0x48#8, 0xA5#8].length % 2 = 0 := ⟨rfl, rfl, rfl⟩
theorem witness_StreamRoundTrip : WfConsistent refTables := ref_consistent
theorem witness_MessageSurvivesTwoErrorsPerCodeword :
    CorrectsTwo refTables ∧ [0x0400#16, 0x0010#16, 0x8002#16].length = [0x48#8, 0x69#8, 0x21#8].length ∧
    ∀ x ∈ [0x0400#16, 0x0010#16, 0x8002#16], popcount x ≤ 2 :=
  ⟨ref_correctsTwo, rfl, by simp [popcount]⟩

end Sys2Proof.Tests
end

namespace Sys2Proof.Machine

/-- Settles O12: `exec_answers` gives the response as one function of the tables for every state, so states with equal
tables get the same byte. -/
theorem resultIgnoresHistory : Obligations.ResultIgnoresHistory := by
  intro i s s' htables
  obtain ⟨result, hexec⟩ := exec_answers i
  refine ⟨result s.tables, hexec s, ?_⟩
  rw [htables]
  exact hexec s'

end Sys2Proof.Machine

namespace Sys2Proof

/-! R36 by the two `op` bits: the operation each pair of bits selects, on the fields R37 names. -/

theorem decode_eq_enc {req : Request} (h17 : req.getLsbD 17 = false) (h16 : req.getLsbD 16 = false) :
    decode req = .enc (Request.aHi req) (Request.aLo req) := by
  rw [decode, Request.op_eq_bits, h17, h16]; rfl

theorem decode_eq_syn {req : Request} (h17 : req.getLsbD 17 = false) (h16 : req.getLsbD 16 = true) :
    decode req = .syn (Request.operand req) := by
  rw [decode, Request.op_eq_bits, h17, h16]; rfl

theorem decode_eq_cor {req : Request} (h17 : req.getLsbD 17 = true) (h16 : req.getLsbD 16 = false) :
    decode req = .cor (Request.aHi req) (Request.aLo req) := by
  rw [decode, Request.op_eq_bits, h17, h16]; rfl

theorem decode_eq_dec {req : Request} (h17 : req.getLsbD 17 = true) (h16 : req.getLsbD 16 = true) :
    decode req = .dec (Request.operand req) := by
  rw [decode, Request.op_eq_bits, h17, h16]; rfl

/-- Settles O4: each pair of `op` bits has its decoding equation, and each operand in it is read bit by bit. -/
theorem requestFieldsSelectAndFeed : Obligations.RequestFieldsSelectAndFeed := by
  intro req
  refine ⟨fun h17 h16 => ?enc, fun h17 h16 => ?syn, fun h17 h16 => ?cor, fun h17 h16 => ?dec⟩
  case enc => exact ⟨_, _, decode_eq_enc h17 h16, Request.getLsbD_aHi req⟩
  case syn => exact ⟨_, decode_eq_syn h17 h16, Request.getLsbD_operand req⟩
  case cor =>
    exact ⟨_, _, decode_eq_cor h17 h16,
      fun k hk => ⟨Request.getLsbD_aHi req k hk, Request.getLsbD_aLo req k hk⟩⟩
  case dec => exact ⟨_, decode_eq_dec h17 h16, Request.getLsbD_operand req⟩

end Sys2Proof

namespace Sys2Proof.Machine

/-! R38 by the two `op` bits: the unit whose output is the response, on the same fields. -/

theorem respond_eq_enc (t : Tables) {req : Request} (h17 : req.getLsbD 17 = false) (h16 : req.getLsbD 16 = false) :
    respond t req = enc t (Request.aHi req) := by
  rw [respond, h17, h16]; rfl

theorem respond_eq_syn (t : Tables) {req : Request} (h17 : req.getLsbD 17 = false) (h16 : req.getLsbD 16 = true) :
    respond t req = syn t (Request.operand req) := by
  rw [respond, h17, h16]; rfl

theorem respond_eq_cor (t : Tables) {req : Request} (h17 : req.getLsbD 17 = true) (h16 : req.getLsbD 16 = false) :
    respond t req = cor t (Request.aHi req) (Request.aLo req) := by
  rw [respond, h17, h16]; rfl

theorem respond_eq_dec (t : Tables) {req : Request} (h17 : req.getLsbD 17 = true) (h16 : req.getLsbD 16 = true) :
    respond t req = dec t (Request.operand req) := by
  rw [respond, h17, h16]; rfl

/-- Running the operation a request decodes to answers what the request port's case of R38 gives. -/
theorem exec_decode (req : Request) (s : State) :
    exec (decode req) s = .next (s.answer (respond s.tables req)) := by
  cases h17 : req.getLsbD 17 <;> cases h16 : req.getLsbD 16
  case false.false => rw [decode_eq_enc h17 h16, respond_eq_enc _ h17 h16]; rfl
  case false.true => rw [decode_eq_syn h17 h16, respond_eq_syn _ h17 h16]; rfl
  case true.false => rw [decode_eq_cor h17 h16, respond_eq_cor _ h17 h16]; rfl
  case true.true => rw [decode_eq_dec h17 h16, respond_eq_dec _ h17 h16]; rfl

/-- Settles O9: with a request pending the step runs what it decodes to (`step_cases`), and that answers `respond`
(`exec_decode`). -/
theorem responseIsTheSelectedUnitsOutput : Obligations.ResponseIsTheSelectedUnitsOutput := by
  intro s req rest hpending
  rcases step_cases s with ⟨hnone, -⟩ | ⟨req', rest', htaken, hstep⟩
  · rw [hpending] at hnone
    cases hnone
  · rw [hpending] at htaken
    cases htaken
    rw [hstep, exec_decode]
    rfl

end Sys2Proof.Machine

namespace Sys2Proof.Machine

/-- R86's first clause on any prefix of the bits: their XOR is true exactly when an odd number of them is set. -/
theorem parityBelow_eq_odd_popcountBelow {w : Nat} (v : BitVec w) (n : Nat) :
    parityBelow v n = (popcountBelow v n % 2 == 1) := by
  induction n with
  | zero => rfl
  | succ n ih =>
    rw [parityBelow_succ, popcountBelow_succ, ih]
    cases v.getLsbD n with
    | false => simp
    | true => rcases Nat.mod_two_eq_zero_or_one (popcountBelow v n) with h | h <;> simp [Nat.add_mod, h]

/-- R61: the parity of a word is the count of its set bits modulo 2. -/
theorem parity_eq_odd_popcount {w : Nat} (v : BitVec w) : parity v = (popcount v % 2 == 1) :=
  parityBelow_eq_odd_popcountBelow v w

/-- R60 bit by bit: `ENC(d)[7 - r] = parity(Hhi[r] & d)`. -/
theorem enc_getLsbD (t : Tables) (d : Byte) (r : Fin 8) :
    (enc t d).getLsbD (7 - r.val) = parity (highByte (readH t r) &&& d) :=
  rowChecks_getLsbD _ r

/-- ENC answers the parity symbol, whatever the ignored field holds. -/
theorem exec_enc (d x : Byte) (s : State) : exec (.enc d x) s = .next (s.answer (enc s.tables d)) := rfl

/-- Settles O24: the byte is `enc s.tables d`; each of its bits is the parity of the masked row (`enc_getLsbD`), which
is the count of set bits modulo 2 (`parity_eq_odd_popcount`). -/
theorem encRespondsTheParityOfEachRow : Obligations.EncRespondsTheParityOfEachRow := by
  intro d s
  refine ⟨enc s.tables d, fun r => ?bit, fun x => ?answer⟩
  case bit => rw [enc_getLsbD, parity_eq_odd_popcount]
  case answer => exact exec_enc d x s

end Sys2Proof.Machine

namespace Sys2Proof.Machine

/-- R65 bit by bit: `SYN(w)[7 - r] = parity(H[r] & w)`, the mask being the whole 16-bit row. -/
theorem syn_getLsbD (t : Tables) (w : Word16) (r : Fin 8) :
    (syn t w).getLsbD (7 - r.val) = parity (readH t r &&& w) :=
  rowChecks_getLsbD _ r

/-- SYN answers the syndrome of its word. -/
theorem exec_syn (w : Word16) (s : State) : exec (.syn w) s = .next (s.answer (syn s.tables w)) := rfl

/-- Settles O25: the byte is `syn s.tables w`; each of its bits is the parity of the masked row (`syn_getLsbD`), which
is the count of set bits modulo 2 (`parity_eq_odd_popcount`). -/
theorem synRespondsTheParityOfEachRow : Obligations.SynRespondsTheParityOfEachRow := by
  intro w s
  refine ⟨syn s.tables w, fun r => ?bit, ?answer⟩
  case bit => rw [syn_getLsbD, parity_eq_odd_popcount]
  case answer => exact exec_syn w s

end Sys2Proof.Machine

namespace Sys2Proof.Machine

/-! Step 2 of COR as one XOR (R70): the nested loops visit `indexPairs` in order, and each pair that matches XORs its
mask into the data byte. -/

/-- `m(i) ^ [i != j] m(j)`: what one matching pair of step 2 flips. -/
def pairMask (p : Fin 16 × Fin 16) : Byte := indexMask p.1 ^^^ (if p.1 ≠ p.2 then indexMask p.2 else 0x00#8)

/-- The pairs `i <= j` whose fingerprints XOR to the syndrome, in scan order. -/
def matchingPairs (t : Tables) (s : Byte) : List (Fin 16 × Fin 16) :=
  indexPairs.filter fun p => readD t p.1 ^^^ readD t p.2 == s

theorem mem_indexPairs (p : Fin 16 × Fin 16) : p ∈ indexPairs ↔ p.1 ≤ p.2 := by
  simp only [indexPairs, List.mem_flatMap, List.mem_map, mem_indicesFrom]
  constructor
  · rintro ⟨i, -, j, hij, rfl⟩
    exact hij
  · exact fun hle => ⟨p.1, mem_tableIndices p.1, p.2, hle, rfl⟩

theorem indexPairs_nodup : indexPairs.Nodup := by
  refine List.nodup_flatMap.mpr ⟨fun i _ => ?row, tableIndices_nodup.imp fun {i i'} hne => ?disjoint⟩
  case row => exact (tableIndices_nodup.filter _).map (Prod.mk_right_injective i)
  case disjoint =>
    intro p hp hp'
    obtain ⟨j, -, rfl⟩ := List.mem_map.mp hp
    obtain ⟨j', -, heq⟩ := List.mem_map.mp hp'
    exact hne (congrArg Prod.fst heq).symm

theorem mem_matchingPairs (t : Tables) (s : Byte) (p : Fin 16 × Fin 16) :
    p ∈ matchingPairs t s ↔ p.1 ≤ p.2 ∧ readD t p.1 ^^^ readD t p.2 = s := by
  simp [matchingPairs, mem_indexPairs]

theorem matchingPairs_nodup (t : Tables) (s : Byte) : (matchingPairs t s).Nodup := indexPairs_nodup.filter _

/-- The nested loops of step 2 are one loop over `indexPairs`. -/
theorem applyPairs_eq_foldl_indexPairs (t : Tables) (s d : Byte) :
    applyPairs t s d = indexPairs.foldl (fun d p => applyPair t s p.1 p.2 d) d := by
  simp only [applyPairs, indexPairs, List.foldl_flatMap, List.foldl_map]

/-- Step 2 XORs the mask of each matching pair into the data byte (R72). -/
theorem applyPairs_eq_foldl_xor (t : Tables) (s d : Byte) :
    applyPairs t s d = ((matchingPairs t s).map pairMask).foldl (· ^^^ ·) d := by
  rw [applyPairs_eq_foldl_indexPairs, List.foldl_map, matchingPairs, List.foldl_filter]
  congr 1
  funext d p
  rw [applyPair_eq_xor]
  by_cases hmatch : readD t p.1 ^^^ readD t p.2 = s <;> simp [hmatch, pairMask]

/-- The start value of an XOR over a list comes out of it. -/
theorem foldl_xor_start (l : List Byte) (d : Byte) : l.foldl (· ^^^ ·) d = d ^^^ l.foldl (· ^^^ ·) 0x00#8 := by
  calc l.foldl (· ^^^ ·) d
    _ = l.foldl (· ^^^ ·) (d ^^^ 0x00#8) := by rw [BitVec.xor_zero]
    _ = d ^^^ l.foldl (· ^^^ ·) 0x00#8 := List.foldl_assoc

/-! `FLIP` by the two steps of R70, and COR as one XOR with it. -/

theorem flipMask_of_single {t : Tables} {s : Byte} {i : Fin 16} (h : singleMatch t s = some i) :
    flipMask t s = indexMask i := by
  rw [flipMask, h]

theorem flipMask_of_no_single {t : Tables} {s : Byte} (h : singleMatch t s = none) :
    flipMask t s = ((matchingPairs t s).map pairMask).foldl (· ^^^ ·) 0x00#8 := by
  rw [flipMask, h]
  rfl

theorem cor_of_single {t : Tables} {s : Byte} {i : Fin 16} (d : Byte) (h : singleMatch t s = some i) :
    cor t d s = flipAt i d := by
  rw [cor, h]

theorem cor_of_no_single {t : Tables} {s : Byte} (d : Byte) (h : singleMatch t s = none) :
    cor t d s = applyPairs t s d := by
  rw [cor, h]

/-- R70's closed form: `COR(d, s) = d ^ FLIP(s)`. -/
theorem cor_eq_xor_flipMask (t : Tables) (d s : Byte) : cor t d s = d ^^^ flipMask t s := by
  cases hsingle : singleMatch t s with
  | some i => rw [cor_of_single d hsingle, flipMask_of_single hsingle, flipAt_eq_xor]
  | none =>
    rw [cor_of_no_single d hsingle, flipMask_of_no_single hsingle, applyPairs_eq_foldl_xor, foldl_xor_start]

/-- COR answers the corrected byte. -/
theorem exec_cor (d q : Byte) (s : State) : exec (.cor d q) s = .next (s.answer (cor s.tables d q)) := rfl

/-- Settles O34: COR is one XOR with `FLIP` (`cor_eq_xor_flipMask`), and XOR with the same mask undoes itself. -/
theorem corIsOneXorWithFlip : Obligations.CorIsOneXorWithFlip := by
  intro d q s
  refine ⟨?xor, ?undo⟩
  case xor => rw [exec_cor, cor_eq_xor_flipMask, State.answer]
  case undo => rw [exec_cor, cor_eq_xor_flipMask, BitVec.xor_assoc, BitVec.xor_self, BitVec.xor_zero, State.answer]

/-- Settles O31: the scan of step 1 stops at the least matching index (`singleMatch_eq_some`), and COR flips there. -/
theorem corFirstSingleMatchDecides : Obligations.CorFirstSingleMatchDecides := by
  intro d q s i hmatch hfirst
  have hsingle : singleMatch s.tables q = some i := (singleMatch_eq_some s.tables q i).mpr ⟨hmatch, hfirst⟩
  rw [exec_cor, cor_of_single d hsingle]
  rfl

end Sys2Proof.Machine

namespace Sys2Proof.Machine

/-- Bit `n` of an XOR over a list counts, modulo 2, the elements with that bit set. -/
theorem getLsbD_foldl_xor (l : List Byte) (n : Nat) :
    (l.foldl (· ^^^ ·) 0x00#8).getLsbD n = (l.countP (·.getLsbD n) % 2 == 1) := by
  induction l with
  | nil => simp
  | cons b l ih =>
    rw [List.foldl_cons, foldl_xor_start, BitVec.zero_xor, BitVec.getLsbD_xor, ih, List.countP_cons]
    cases b.getLsbD n with
    | false => simp
    | true => rcases Nat.mod_two_eq_zero_or_one (l.countP (·.getLsbD n)) with h | h <;> simp [Nat.add_mod, h]

/-- The mask of an index has the data bit of that index and no other (R71: a parity index has none). -/
theorem indexMask_getLsbD (i : Fin 16) {k : Fin 16} (hk : k.val < 8) :
    (indexMask i).getLsbD (7 - k.val) = decide (i = k) := by
  revert i k
  decide

/-- The mask of a pair has the data bits of the indices it names, each once (R72). -/
theorem pairMask_getLsbD (p : Fin 16 × Fin 16) {k : Fin 16} (hk : k.val < 8) :
    (pairMask p).getLsbD (7 - k.val) = decide (p.1 = k ∨ p.2 = k) := by
  obtain ⟨i, j⟩ := p
  by_cases hij : i = j
  · subst hij
    simp [pairMask, indexMask_getLsbD _ hk]
  · rw [pairMask, if_pos hij, BitVec.getLsbD_xor, indexMask_getLsbD i hk, indexMask_getLsbD j hk]
    by_cases hi : i = k
    · have hj : j ≠ k := fun hj => hij (hi.trans hj.symm)
      simp [hi, hj]
    · simp [hi]

/-- Counting the matching pairs that name index `k` in the scan's list is counting them among all pairs. -/
theorem countP_matchingPairs (t : Tables) (s : Byte) (k : Fin 16) :
    (matchingPairs t s).countP (fun p => decide (p.1 = k ∨ p.2 = k)) =
      (Finset.univ.filter fun p : Fin 16 × Fin 16 =>
        p.1 ≤ p.2 ∧ readD t p.1 ^^^ readD t p.2 = s ∧ (p.1 = k ∨ p.2 = k)).card := by
  rw [List.countP_eq_length_filter, ← List.toFinset_card_of_nodup ((matchingPairs_nodup t s).filter _)]
  congr 1
  ext p
  simp [mem_matchingPairs, and_assoc]

/-- Settles O32: with no single match `FLIP` is the XOR of the matching pairs' masks, so its bit `7 - k` counts, modulo
2, the matching pairs that name `k`. -/
theorem corAppliesEveryMatchingPair : Obligations.CorAppliesEveryMatchingPair := by
  intro d q s hnone
  have hsingle : singleMatch s.tables q = none := (singleMatch_eq_none s.tables q).mpr hnone
  refine ⟨cor s.tables d q, exec_cor d q s, fun k hk => ?bit⟩
  case bit =>
    have hnames : (fun p => (pairMask p).getLsbD (7 - k.val)) = fun p => decide (p.1 = k ∨ p.2 = k) :=
      funext fun p => pairMask_getLsbD p hk
    rw [cor_eq_xor_flipMask, BitVec.getLsbD_xor, flipMask_of_no_single hsingle, getLsbD_foldl_xor, List.countP_map,
      ← countP_matchingPairs, ← hnames]
    rfl

/-- Settles O33: no pair matches, so `FLIP` is the XOR of no masks. -/
theorem corLeavesUnmatchedByteAlone : Obligations.CorLeavesUnmatchedByteAlone := by
  intro d q s hnone hnopair
  have hsingle : singleMatch s.tables q = none := (singleMatch_eq_none s.tables q).mpr hnone
  have hempty : matchingPairs s.tables q = [] := by
    refine List.eq_nil_iff_forall_not_mem.mpr fun p hp => ?_
    obtain ⟨hle, hmatch⟩ := (mem_matchingPairs s.tables q p).mp hp
    exact hnopair p.1 p.2 hle hmatch
  rw [exec_cor, cor_of_no_single d hsingle, applyPairs_eq_foldl_xor, hempty]
  rfl

/-- Under WF_PAIRS a nonzero syndrome has no matching pair beside the one at hand: a pair `i = j` XORs to zero, and two
pairs `i < j` with one XOR are equal. -/
theorem matchingPairs_eq_singleton {t : Tables} {q : Byte} {i j : Fin 16} (hpairs : WfPairs t) (hq : q ≠ 0x00#8)
    (hij : i < j) (hmatch : readD t i ^^^ readD t j = q) : matchingPairs t q = [(i, j)] := by
  refine List.perm_singleton.mp ((List.perm_ext_iff_of_nodup (matchingPairs_nodup t q) (List.nodup_singleton _)).mpr
    fun p => ?_)
  rw [mem_matchingPairs, List.mem_singleton]
  constructor
  · rintro ⟨hle, hp⟩
    have hne : p.1 ≠ p.2 := by
      intro heq
      rw [heq, BitVec.xor_self] at hp
      exact hq hp.symm
    obtain ⟨h1, h2⟩ := hpairs q hq p.1 p.2 i j (lt_of_le_of_ne hle hne) hij hp hmatch
    exact Prod.ext h1 h2
  · rintro rfl
    exact ⟨hij.le, hmatch⟩

/-- Settles O35: step 2 XORs in the mask of the one matching pair (`matchingPairs_eq_singleton`). -/
theorem corPairIsWholeWhenPairsAreUnique : Obligations.CorPairIsWholeWhenPairsAreUnique := by
  intro d q s i j hpairs hq hnone hij hmatch
  have hsingle : singleMatch s.tables q = none := (singleMatch_eq_none s.tables q).mpr hnone
  have hmask : pairMask (i, j) = indexMask i ^^^ indexMask j := by rw [pairMask, if_pos hij.ne]
  rw [exec_cor, cor_of_no_single d hsingle, applyPairs_eq_foldl_xor,
    matchingPairs_eq_singleton hpairs hq hij hmatch, List.map_singleton, List.foldl_cons, List.foldl_nil, hmask,
    ← BitVec.xor_assoc, State.answer]

end Sys2Proof.Machine

namespace Sys2Proof.Machine

/-! `DEC(w)` by the two cases of R80: syndrome zero, and any other syndrome. -/

theorem dec_of_syn_eq_zero {t : Tables} {w : Word16} (h : syn t w = 0x00#8) : dec t w = highByte w := if_pos h

theorem dec_of_syn_ne_zero {t : Tables} {w : Word16} (h : syn t w ≠ 0x00#8) :
    dec t w = cor t (highByte w) (syn t w) := if_neg h

/-- DEC answers the decoded data byte. -/
theorem exec_dec (w : Word16) (s : State) : exec (.dec w) s = .next (s.answer (dec s.tables w)) := rfl

/-- Settles O37: SYN answers `syn s.tables w` and DEC answers `dec s.tables w`; by the case of R80 the latter is the
high byte (`dec_of_syn_eq_zero`) or the byte COR answers on it (`dec_of_syn_ne_zero`). -/
theorem decPassesThroughOrCorrects : Obligations.DecPassesThroughOrCorrects := by
  intro w s
  refine ⟨syn s.tables w, dec s.tables w, exec_syn w s, exec_dec w s, fun hzero k hk => ?passesThrough,
    fun hnonzero => ?corrects⟩
  case passesThrough => rw [dec_of_syn_eq_zero hzero, getLsbD_highByte w k hk]
  case corrects =>
    rw [dec_of_syn_ne_zero hnonzero]
    exact exec_cor (highByte w) (syn s.tables w) s

end Sys2Proof.Machine

namespace Sys2Proof.Machine

/-! R86: parity is additive over XOR, and over the two parts of a concatenation. -/

theorem parityBelow_xor {w : Nat} (a b : BitVec w) (n : Nat) :
    parityBelow (a ^^^ b) n = (parityBelow a n ^^ parityBelow b n) := by
  induction n with
  | zero => rfl
  | succ n ih =>
    simp only [parityBelow_succ, ih, BitVec.getLsbD_xor, Bool.xor_assoc, Bool.xor_left_comm]

theorem parity_xor {w : Nat} (a b : BitVec w) : parity (a ^^^ b) = (parity a ^^ parity b) := parityBelow_xor a b w

@[simp] theorem parity_zero (w : Nat) : parity (0#w) = false := by
  calc parity (0#w)
    _ = parity (0#w ^^^ 0#w) := by rw [BitVec.xor_self]
    _ = false := by rw [parity_xor, Bool.xor_self]

theorem parity_and_xor {w : Nat} (m a b : BitVec w) :
    parity (m &&& (a ^^^ b)) = (parity (m &&& a) ^^ parity (m &&& b)) := by
  have hmask : m &&& (a ^^^ b) = (m &&& a) ^^^ (m &&& b) :=
    BitVec.eq_of_getLsbD_eq fun k _ => by simp [Bool.and_xor_distrib_left]
  rw [hmask, parity_xor]

/-- Settles O26: the popcount clause is `parity_eq_odd_popcount`; the XOR of bits distributes over an XOR of words, and
the mask distributes first. -/
theorem parityIsAdditive : Obligations.ParityIsAdditive := fun n a b m =>
  ⟨parity_eq_odd_popcount a, parity_zero n, parity_xor a b, parity_and_xor m a b⟩

theorem parityBelow_append_low {m n : Nat} (a : BitVec m) (b : BitVec n) {k : Nat} (hk : k ≤ n) :
    parityBelow (a ++ b) k = parityBelow b k := by
  induction k with
  | zero => rfl
  | succ k ih => simp [ih (by omega), BitVec.getLsbD_append, show k < n by omega]

theorem parityBelow_append_high {m n : Nat} (a : BitVec m) (b : BitVec n) (k : Nat) :
    parityBelow (a ++ b) (n + k) = (parityBelow a k ^^ parity b) := by
  induction k with
  | zero => simp [parityBelow_append_low a b le_rfl, parity]
  | succ k ih =>
    have hbit : (a ++ b).getLsbD (n + k) = a.getLsbD k := by simp [BitVec.getLsbD_append]
    rw [← Nat.add_assoc, parityBelow_succ, ih, hbit, parityBelow_succ, Bool.xor_assoc, Bool.xor_assoc,
      Bool.xor_comm (parity b)]

theorem parity_append {m n : Nat} (a : BitVec m) (b : BitVec n) : parity (a ++ b) = (parity a ^^ parity b) := by
  calc parity (a ++ b)
    _ = parityBelow (a ++ b) (n + m) := congrArg (parityBelow (a ++ b)) (Nat.add_comm m n)
    _ = (parity a ^^ parity b) := parityBelow_append_high a b m

/-! The codeword layout (R21) and XOR. -/

@[simp] theorem codeword_highByte_lowByte (w : Word16) : codeword (highByte w) (lowByte w) = w := by
  apply BitVec.eq_of_getLsbD_eq
  intro k hk
  rw [codeword, BitVec.getLsbD_append]
  split
  · exact getLsbD_lowByte w k ‹_›
  · rw [getLsbD_highByte w (k - 8) (by omega)]; congr 1; omega

theorem codeword_xor (a p b q : Byte) : codeword a p ^^^ codeword b q = codeword (a ^^^ b) (p ^^^ q) :=
  BitVec.xor_append

/-- A row masking a codeword masks the data byte with its high byte and the parity byte with its low byte. -/
theorem parity_and_codeword (row : Word16) (d q : Byte) :
    parity (row &&& codeword d q) = (parity (highByte row &&& d) ^^ parity (lowByte row &&& q)) := by
  calc parity (row &&& codeword d q)
    _ = parity (codeword (highByte row) (lowByte row) &&& codeword d q) := by rw [codeword_highByte_lowByte]
    _ = parity ((highByte row &&& d) ++ (lowByte row &&& q)) := by rw [codeword, codeword, BitVec.and_append]
    _ = (parity (highByte row &&& d) ^^ parity (lowByte row &&& q)) := parity_append _ _

/-! R87: linearity of SYN and ENC, row by row from `parity_and_xor`. -/

theorem syn_xor (t : Tables) (x y : Word16) : syn t (x ^^^ y) = syn t x ^^^ syn t y :=
  byte_eq_of_rows fun r => by simp only [BitVec.getLsbD_xor, syn_getLsbD, parity_and_xor]

theorem enc_xor (t : Tables) (a b : Byte) : enc t (a ^^^ b) = enc t a ^^^ enc t b :=
  byte_eq_of_rows fun r => by simp only [BitVec.getLsbD_xor, enc_getLsbD, parity_and_xor]

@[simp] theorem syn_zero (t : Tables) : syn t 0x0000#16 = 0x00#8 :=
  byte_eq_of_rows fun r => by simp [syn_getLsbD]

@[simp] theorem enc_zero (t : Tables) : enc t 0x00#8 = 0x00#8 :=
  byte_eq_of_rows fun r => by simp [enc_getLsbD]

theorem syn_codeword (t : Tables) (d q : Byte) : syn t (codeword d q) = enc t d ^^^ syn t (codeword 0x00#8 q) :=
  byte_eq_of_rows fun r => by simp [syn_getLsbD, enc_getLsbD, parity_and_codeword]

theorem getLsbD_bitWord {p k : Nat} (hk : k < 16) : (bitWord p).getLsbD k = decide (p = k) := by
  simp only [bitWord, BitVec.getLsbD_shiftLeft, BitVec.getLsbD_one, hk]
  grind

/-- The XOR of `e(p)` over the set bits of `w` below `n` is those bits of `w`. -/
theorem foldl_bitWord_getLsbD (w : Word16) (n : Nat) {k : Nat} (hk : k < 16) :
    ((List.range n).foldl (fun acc p => if w.getLsbD p then acc ^^^ bitWord p else acc) 0x0000#16).getLsbD k =
      (decide (k < n) && w.getLsbD k) := by
  induction n with
  | zero => simp
  | succ n ih =>
    rw [List.range_succ, List.foldl_append, List.foldl_cons, List.foldl_nil]
    rcases eq_or_ne n k with rfl | hne
    · cases hbit : w.getLsbD n <;> simp [ih, hbit, getLsbD_bitWord hk]
    · have hlt : k < n + 1 ↔ k < n := by omega
      split <;> simp [ih, getLsbD_bitWord hk, hne, hlt]

theorem foldl_bitWord (w : Word16) :
    (List.range 16).foldl (fun acc p => if w.getLsbD p then acc ^^^ bitWord p else acc) 0x0000#16 = w := by
  apply BitVec.eq_of_getLsbD_eq
  intro k hk
  rw [foldl_bitWord_getLsbD w 16 hk, decide_eq_true hk, Bool.true_and]

/-- SYN passes through the XOR over the set bits, since it is linear. -/
theorem syn_eq_foldl_syn_bitWord (t : Tables) (w : Word16) :
    syn t w = (List.range 16).foldl (fun acc p => if w.getLsbD p then acc ^^^ syn t (bitWord p) else acc) 0x00#8 := by
  conv_lhs => rw [← foldl_bitWord w]
  rw [← syn_zero t]
  refine (List.foldl_hom (syn t) fun acc p => ?_).symm
  split
  · rw [syn_xor]
  · rfl

/-- Settles O27: SYN and ENC are additive because each masked parity is (`parity_and_xor`); the split is the codeword
layout (`parity_and_codeword`). -/
theorem syndromeAndEncoderAreLinear : Obligations.SyndromeAndEncoderAreLinear := fun t =>
  ⟨syn_xor t, enc_xor t, syn_codeword t, syn_zero t, enc_zero t, syn_eq_foldl_syn_bitWord t⟩

/-- Settles O28: zero has syndrome zero, so DEC answers its high byte. -/
theorem zeroGivesZero : Obligations.ZeroGivesZero := by
  intro s x
  refine ⟨?enc, ?syn, ?dec⟩
  case enc => rw [exec_enc, enc_zero, State.answer]
  case syn => rw [exec_syn, syn_zero, State.answer]
  case dec =>
    have hhigh : highByte 0x0000#16 = 0x00#8 := by decide
    rw [exec_dec, dec_of_syn_eq_zero (syn_zero s.tables), hhigh, State.answer]

end Sys2Proof.Machine

namespace Sys2Proof.Machine

/-! The laws of consistent tables (R90, R91). -/

theorem dec_codeword_enc {t : Tables} (hconsistent : WfConsistent t) (b : Byte) :
    dec t (codeword b (enc t b)) = b := by
  rw [dec_of_syn_eq_zero (hconsistent b), highByte_codeword]

theorem syn_codeword_enc_xor {t : Tables} (hconsistent : WfConsistent t) (b : Byte) (x : Word16) :
    syn t (codeword b (enc t b) ^^^ x) = syn t x := by
  rw [syn_xor, hconsistent b, BitVec.zero_xor]

/-- Settles O38: the codeword has syndrome zero, so DEC passes its high byte through. -/
theorem roundTripWithoutErrors : Obligations.RoundTripWithoutErrors := by
  intro s b hconsistent
  rw [exec_dec, dec_codeword_enc hconsistent, State.answer]

/-- Settles O39: the layout and ENC are both additive, and SYN is additive with the codeword's own part zero. -/
theorem syndromeSeesOnlyTheError : Obligations.SyndromeSeesOnlyTheError := by
  intro t hconsistent
  refine ⟨hconsistent, fun a b => ?closed, syn_codeword_enc_xor hconsistent⟩
  case closed => rw [codeword_xor, enc_xor]

/-- Settles O29: masking with `0xFF` keeps every high byte whole; decoding is the round trip of R90. -/
theorem allOnesByteEncodes : Obligations.AllOnesByteEncodes := by
  refine ⟨fun s x => ⟨enc s.tables 0xFF#8, exec_enc 0xFF#8 x s, fun r => ?bit, fun hconsistent => ?roundTrip⟩,
    ?refEnc, ?refDec⟩
  case bit =>
    have ones : 0xFF#8 = BitVec.allOnes 8 := by decide
    rw [enc_getLsbD, ones, BitVec.and_allOnes]
  case roundTrip => exact roundTripWithoutErrors s 0xFF#8 hconsistent
  case refEnc => decide +kernel
  case refDec => decide +kernel

end Sys2Proof.Machine

namespace Sys2Proof.Machine

/-! R88: `FLIP` read off the fingerprints, with no trace of the order of the indices above 7. -/

/-- The pairs that name index `k` and XOR to the syndrome are as many as the partners of `k`: its partner `j` stands
first or second in the pair, as the order of `k` and `j` has it. -/
theorem card_matchingPairs_naming (t : Tables) (s : Byte) (k : Fin 16) :
    (Finset.univ.filter fun p : Fin 16 × Fin 16 =>
        p.1 ≤ p.2 ∧ readD t p.1 ^^^ readD t p.2 = s ∧ (p.1 = k ∨ p.2 = k)).card =
      (Finset.univ.filter fun j : Fin 16 => readD t k ^^^ readD t j = s).card := by
  refine (Finset.card_nbij (fun j => (min j k, max j k)) ?maps ?injective ?surjective).symm
  case maps =>
    intro j hj
    have hmatch : readD t k ^^^ readD t j = s := (Finset.mem_filter.mp hj).2
    rcases le_total k j with hle | hle
    · simp [hle, hmatch]
    · simp [hle, BitVec.xor_comm (readD t j), hmatch]
  case injective =>
    intro j _ j' _ heq
    obtain ⟨hmin, hmax⟩ := Prod.mk.inj heq
    exact eq_of_inf_eq_sup_eq hmin hmax
  case surjective =>
    rintro ⟨i, j⟩ hp
    obtain ⟨hle, hmatch, rfl | rfl⟩ := (Finset.mem_filter.mp hp).2
    · exact ⟨j, by simpa using hmatch, by simpa using hle⟩
    · exact ⟨i, by simpa [BitVec.xor_comm] using hmatch, by simpa using hle⟩

/-- Bit `7 - k` of `FLIP`: with a single match, whether index `k` is the first one; with none, whether index `k` has an
odd number of partners. -/
theorem flipMask_getLsbD (t : Tables) (s : Byte) {k : Fin 16} (hk : k.val < 8) :
    (flipMask t s).getLsbD (7 - k.val) =
      if ∃ i, readD t i = s then decide (readD t k = s ∧ ∀ j < k, readD t j ≠ s)
      else (Finset.univ.filter fun j : Fin 16 => readD t k ^^^ readD t j = s).card % 2 == 1 := by
  cases hsingle : singleMatch t s with
  | some i =>
    have hmatch : ∃ i, readD t i = s := ⟨i, ((singleMatch_eq_some t s i).mp hsingle).1⟩
    have hfirst : i = k ↔ readD t k = s ∧ ∀ j < k, readD t j ≠ s := by
      rw [← singleMatch_eq_some, hsingle, Option.some.injEq]
    rw [if_pos hmatch, flipMask_of_single hsingle, indexMask_getLsbD i hk, decide_eq_decide.mpr hfirst]
  | none =>
    have hnone : ¬∃ i, readD t i = s := not_exists.mpr ((singleMatch_eq_none t s).mp hsingle)
    have hnames : (fun b : Byte => b.getLsbD (7 - k.val)) ∘ pairMask = fun p => decide (p.1 = k ∨ p.2 = k) :=
      funext fun p => pairMask_getLsbD p hk
    rw [if_neg hnone, flipMask_of_no_single hsingle, getLsbD_foldl_xor, List.countP_map, hnames,
      countP_matchingPairs, card_matchingPairs_naming]

/-- Permuting the fingerprints of the parity positions leaves `FLIP` alone. -/
theorem flipMask_perm {t t' : Tables} (σ : Equiv.Perm (Fin 16)) (hfix : ∀ i : Fin 16, i.val < 8 → σ i = i)
    (hperm : ∀ i, readD t' i = readD t (σ i)) (s : Byte) : flipMask t' s = flipMask t s := by
  have hsame : ∀ i : Fin 16, i.val < 8 → readD t' i = readD t i := fun i hi => by rw [hperm, hfix i hi]
  have hmatch : (∃ i, readD t' i = s) ↔ ∃ i, readD t i = s := σ.exists_congr fun i => by rw [hperm]
  have hfirst (k : Fin 16) (hk : k.val < 8) :
      (readD t' k = s ∧ ∀ j < k, readD t' j ≠ s) ↔ (readD t k = s ∧ ∀ j < k, readD t j ≠ s) := by
    have hbelow : (∀ j < k, readD t' j ≠ s) ↔ ∀ j < k, readD t j ≠ s :=
      forall₂_congr fun j hj => by rw [hsame j (lt_trans hj hk)]
    rw [hsame k hk, hbelow]
  have hpartners (k : Fin 16) (hk : k.val < 8) :
      (Finset.univ.filter fun j => readD t' k ^^^ readD t' j = s).card =
        (Finset.univ.filter fun j => readD t k ^^^ readD t j = s).card :=
    Finset.card_equiv σ fun j => by simp [hsame k hk, hperm j]
  refine byte_eq_of_rows fun r => ?_
  have hk : (Fin.castLE (by omega) r : Fin 16).val < 8 := r.isLt
  calc (flipMask t' s).getLsbD (7 - r.val)
    _ = _ := flipMask_getLsbD t' s hk
    _ = _ := by simp only [hmatch, hfirst _ hk, hpartners _ hk]
    _ = (flipMask t s).getLsbD (7 - r.val) := (flipMask_getLsbD t s hk).symm

theorem syn_eq_of_rows_eq {t t' : Tables} (h : t'.h = t.h) (w : Word16) : syn t' w = syn t w := by
  simp only [syn, readH, h]

/-- DEC depends on the rows through SYN and on the fingerprints through `FLIP`. -/
theorem dec_eq_ite_flipMask (t : Tables) (w : Word16) :
    dec t w = if syn t w = 0x00#8 then highByte w else highByte w ^^^ flipMask t (syn t w) := by
  rw [dec, cor_eq_xor_flipMask]

/-- Settles O36: COR and DEC reach the fingerprints through `FLIP` only, and `FLIP` is the same (`flipMask_perm`). -/
theorem correctionBlindToParityOrder : Obligations.CorrectionBlindToParityOrder := by
  refine ⟨cor_eq_xor_flipMask, fun t t' σ hfix hrows hperm => ?_⟩
  have hflip := flipMask_perm σ hfix hperm
  refine ⟨hflip, fun d q => ?cor, fun w => ?dec⟩
  case cor => rw [cor_eq_xor_flipMask, cor_eq_xor_flipMask, hflip]
  case dec => rw [dec_eq_ite_flipMask, dec_eq_ite_flipMask, syn_eq_of_rows_eq hrows, hflip]

end Sys2Proof.Machine

namespace Sys2Proof.Machine

/-! Correction (R93, R94): DEC restores the byte when `FLIP` of the error's syndrome is the error's data part. -/

/-- R95's detected case: the byte DEC answers for an error pattern with a nonzero syndrome. -/
theorem dec_codeword_enc_xor {t : Tables} (hconsistent : WfConsistent t) (b : Byte) {x : Word16}
    (hx : syn t x ≠ 0x00#8) :
    dec t (codeword b (enc t b) ^^^ x) = b ^^^ highByte x ^^^ flipMask t (syn t x) := by
  rw [dec_eq_ite_flipMask, syn_codeword_enc_xor hconsistent, if_neg hx, highByte_xor, highByte_codeword]

theorem dec_corrects {t : Tables} (hconsistent : WfConsistent t) (b : Byte) {x : Word16} (hx : syn t x ≠ 0x00#8)
    (hflip : flipMask t (syn t x) = highByte x) : dec t (codeword b (enc t b) ^^^ x) = b := by
  rw [dec_codeword_enc_xor hconsistent b hx, hflip, BitVec.xor_assoc, BitVec.xor_self, BitVec.xor_zero]

/-- Every bit position belongs to a table index (R22). -/
theorem exists_index_of_position {p : Nat} (hp : p < 16) : ∃ i : Fin 16, p = 15 - i.val :=
  ⟨⟨15 - p, by omega⟩, (Nat.sub_sub_self (Nat.le_of_lt_succ hp)).symm⟩

/-- The data part of the bit at an index is the index's mask. -/
theorem highByte_bitWord (i : Fin 16) : highByte (bitWord (15 - i.val)) = indexMask i := by
  revert i
  decide

/-- R71 with distinct fingerprints: the syndrome of an index flips at that index. -/
theorem flipMask_readD {t : Tables} (hdistinct : WfDistinct t) (i : Fin 16) :
    flipMask t (readD t i) = indexMask i := by
  obtain ⟨-, hinj⟩ := hdistinct
  exact flipMask_of_single
    ((singleMatch_eq_some t _ i).mpr ⟨rfl, fun k hk heq => absurd (hinj k i heq) hk.ne⟩)

/-- Settles O40: the syndrome is the fingerprint of the flipped position, whose mask `FLIP` gives back. -/
theorem singleBitErrorsAreCorrected : Obligations.SingleBitErrorsAreCorrected := by
  intro s b p ⟨hconsistent, hcolumns, hdistinct⟩ hp
  obtain ⟨i, rfl⟩ := exists_index_of_position hp
  have hsyn : syn s.tables (bitWord (15 - i.val)) = readD s.tables i := (hcolumns i).symm
  have hnonzero : syn s.tables (bitWord (15 - i.val)) ≠ 0x00#8 := by
    rw [hsyn]
    exact hdistinct.1 i
  have hflip : flipMask s.tables (syn s.tables (bitWord (15 - i.val))) = highByte (bitWord (15 - i.val)) := by
    rw [hsyn, flipMask_readD hdistinct, highByte_bitWord]
  rw [exec_dec, dec_corrects hconsistent b hnonzero hflip, State.answer]

/-- Two different fingerprints XOR to a nonzero syndrome. -/
theorem readD_xor_ne_zero {t : Tables} (hdistinct : WfDistinct t) {i j : Fin 16} (hij : i ≠ j) :
    readD t i ^^^ readD t j ≠ 0x00#8 := fun hzero => hij (hdistinct.2 i j (BitVec.xor_eq_zero_iff.mp hzero))

/-- R72 under the five conditions: the syndrome of two indices flips at both and nowhere else. -/
theorem flipMask_pair {t : Tables} (h : CorrectsTwo t) {i j : Fin 16} (hij : i < j) :
    flipMask t (readD t i ^^^ readD t j) = indexMask i ^^^ indexMask j := by
  have hsingle : singleMatch t (readD t i ^^^ readD t j) = none :=
    (singleMatch_eq_none t _).mpr fun k => (h.separate i j hij k).symm
  rw [flipMask_of_no_single hsingle,
    matchingPairs_eq_singleton h.pairs (readD_xor_ne_zero h.distinct hij.ne) hij rfl]
  simp [pairMask, hij.ne]

/-- `flipMask_pair` for two different indices in either order. -/
theorem flipMask_pair_of_ne {t : Tables} (h : CorrectsTwo t) {i j : Fin 16} (hij : i ≠ j) :
    flipMask t (readD t i ^^^ readD t j) = indexMask i ^^^ indexMask j := by
  rcases lt_or_gt_of_ne hij with hlt | hgt
  · exact flipMask_pair h hlt
  · rw [BitVec.xor_comm (readD t i), BitVec.xor_comm (indexMask i), flipMask_pair h hgt]

/-- Settles O41: the syndrome is the XOR of the two positions' fingerprints, whose masks `FLIP` gives back. -/
theorem doubleBitErrorsAreCorrected : Obligations.DoubleBitErrorsAreCorrected := by
  intro s b p q htables hp hq hpq
  obtain ⟨i, rfl⟩ := exists_index_of_position hp
  obtain ⟨j, rfl⟩ := exists_index_of_position hq
  have hij : i ≠ j := fun heq => hpq (by rw [heq])
  have hsyn : syn s.tables (bitWord (15 - i.val) ^^^ bitWord (15 - j.val)) =
      readD s.tables i ^^^ readD s.tables j := by
    rw [syn_xor, ← htables.columns i, ← htables.columns j]
  have hnonzero : syn s.tables (bitWord (15 - i.val) ^^^ bitWord (15 - j.val)) ≠ 0x00#8 := by
    rw [hsyn]
    exact readD_xor_ne_zero htables.distinct hij
  have hflip : flipMask s.tables (syn s.tables (bitWord (15 - i.val) ^^^ bitWord (15 - j.val))) =
      highByte (bitWord (15 - i.val) ^^^ bitWord (15 - j.val)) := by
    rw [hsyn, flipMask_pair_of_ne htables hij, highByte_xor, highByte_bitWord, highByte_bitWord]
  rw [exec_dec, BitVec.xor_assoc, dec_corrects htables.consistent b hnonzero hflip, State.answer]

end Sys2Proof.Machine

namespace Sys2Proof.Machine

/-! A step and a run by the pending requests (D14). -/

/-- With nothing pending a step changes nothing (log entry 4). -/
theorem step_of_idle {s : State} (h : s.requests = []) : step s = .next s := by
  rcases step_cases s with ⟨-, hstep⟩ | ⟨req, rest, hpending, -⟩
  · exact hstep
  · rw [h] at hpending
    cases hpending

/-- Settles O14, by induction on the number of steps: the first step answers the oldest request by `respond` (O9) or
idles, and the induction hypothesis speaks of the state it leaves. -/
theorem runAnswersEachRequestInItsPlace : Obligations.RunAnswersEachRequestInItsPlace := by
  intro n
  induction n with
  | zero => intro s; simp [Host.Core.run]
  | succ n ih =>
    intro s
    cases hpending : s.requests with
    | nil => rw [run_succ_of_next (step_of_idle hpending), ih, hpending]; simp
    | cons req rest =>
      rw [run_succ_of_next (responseIsTheSelectedUnitsOutput s req rest hpending), ih]
      simp

/-- Settles O16: an idle step keeps the state; any other moves the response of the oldest request from the promised
part of the list to its delivered part. -/
theorem everyStepKeepsThePromisedResponses : Obligations.EveryStepKeepsThePromisedResponses := by
  rintro t promise s s' ⟨rfl, rfl⟩ hstep
  cases hpending : s.requests with
  | nil =>
    rw [step_of_idle hpending] at hstep
    cases hstep
    exact ⟨rfl, rfl⟩
  | cons req rest =>
    rw [responseIsTheSelectedUnitsOutput s req rest hpending] at hstep
    cases hstep
    exact ⟨rfl, by simp [State.promised, hpending]⟩

/-- Settles O13: the state a run leads to is the one of O14, which has the tables it began with. -/
theorem noRunChangesATable : Obligations.NoRunChangesATable := by
  intro n s s' hrun
  rw [runAnswersEachRequestInItsPlace n s] at hrun
  cases hrun
  rfl

/-- A run as long as the pending list answers every request and leaves none. -/
theorem run_all_requests (s : State) :
    core.run s.requests.length s =
      .next { tables := s.tables, requests := [],
              responses := s.responses ++ s.requests.map (respond s.tables) } := by
  rw [runAnswersEachRequestInItsPlace, List.drop_length, List.take_length]

/-- Settles O15: both runs pair each request with `respond` of it under the common tables, and mapping keeps
permutations. -/
theorem orderOfRequestsCannotBeSeen : Obligations.OrderOfRequestsCannotBeSeen := by
  intro s s' htables hperm
  refine ⟨_, _, run_all_requests s, run_all_requests s', List.length_map _, List.length_map _, ?paired⟩
  case paired =>
    rw [← htables, ← List.map_prod_left_eq_zip, ← List.map_prod_left_eq_zip]
    exact hperm.map _

/-- Settles O7: with a request pending it is the one `step_cases` takes; with none the step idles. -/
theorem stepRunsTheDecodedRequest : Obligations.StepRunsTheDecodedRequest := by
  refine fun s => ⟨fun req rest hpending => ?taken, step_of_idle⟩
  case taken =>
    rw [responseIsTheSelectedUnitsOutput s req rest hpending, exec_decode, State.answer]

/-- Settles O10: every operation answers (`exec_answers`), and a step idles or runs an operation (`step_cases`). -/
theorem noOperationRaisesAnything : Obligations.NoOperationRaisesAnything := by
  have hexec (i : Instr) (s : State) : wentOn (exec i s) = true := by
    obtain ⟨result, hresult⟩ := exec_answers i
    rw [hresult, wentOn]
  refine ⟨hexec, fun s => ?_⟩
  rcases step_cases s with ⟨-, hstep⟩ | ⟨req, rest, -, hstep⟩
  · rw [hstep, wentOn]
  · rw [hstep, hexec]

/-- Settles O11: the next state is the old one with one response delivered (`exec_answers`), read field by field. -/
theorem operationsOnlyAddOneResponse : Obligations.OperationsOnlyAddOneResponse := by
  intro i s s' hnext
  obtain ⟨result, hresult⟩ := exec_answers i
  rw [hresult s] at hnext
  cases hnext
  exact ⟨fun r => by rw [State.answer_tables], fun k => by rw [State.answer_tables], s.answer_requests _,
    _, s.answer_responses _⟩

/-- Settles O17: `State.reset` is REF with nothing pending and nothing answered. -/
theorem resetPromisesNothing : Obligations.ResetPromisesNothing :=
  ⟨State.reset_tables, by simp [State.promised]⟩

/-- A number below 2^18 stands for the request word of its bits. -/
theorem requestOfNat_of_lt {n : Nat} (h : n < 2 ^ 18) : requestOfNat n = .ok (BitVec.ofNat 18 n) := if_pos h

/-- Settles O8: the bits given are the number itself, the number stands for its request word, and the step takes the
word presented first. -/
theorem presentedNumberRunsNext : Obligations.PresentedNumberRunsNext := by
  intro s nbits w hw hbits
  have hrequest : requestOfNat (w % 2 ^ nbits) = .ok (BitVec.ofNat 18 w) := by
    rw [Nat.mod_eq_of_lt hbits, requestOfNat_of_lt hw]
  have hpresent : s.withFetchWord nbits w = s.present (BitVec.ofNat 18 w) := by
    rw [State.withFetchWord, tableRequest, hrequest]
  refine ⟨?decodes, ?runs⟩
  case decodes => rw [decodeTableWord, decodeNat, hrequest]
  case runs =>
    rw [hpresent]
    exact (stepRunsTheDecodedRequest _).1 _ _ (s.present_requests _)

end Sys2Proof.Machine

namespace Sys2Proof

open Sys2Proof.Machine

/-! Encoding and decoding field by field: a request word is `op` and operand, and the operand of ENC and COR is two
bytes. -/

/-- `req = {op, a}` (R35). -/
theorem Request.op_append_operand (req : Request) : Request.op req ++ Request.operand req = req :=
  BitVec.eq_of_getLsbD_eq fun k hk => by
    rw [BitVec.getLsbD_append]
    split
    case isTrue hlow => exact Request.getLsbD_operand req k hlow
    case isFalse hhigh =>
      rw [Request.op, BitVec.getLsbD_extractLsb', Nat.add_sub_cancel' (by omega)]
      simp [show k - 16 < 2 by omega]

theorem Request.aHi_eq_highByte_operand (req : Request) : Request.aHi req = highByte (Request.operand req) :=
  BitVec.eq_of_getLsbD_eq fun k hk => by
    rw [Request.getLsbD_aHi req k hk, getLsbD_highByte _ k hk, Request.getLsbD_operand req _ (by omega)]

theorem Request.aLo_eq_lowByte_operand (req : Request) : Request.aLo req = lowByte (Request.operand req) :=
  BitVec.eq_of_getLsbD_eq fun k hk => by
    rw [Request.getLsbD_aLo req k hk, getLsbD_lowByte _ k hk, Request.getLsbD_operand req k (by omega)]

/-- The operand bytes of an encoded instruction whose operand field is the two bytes `d` and `q`. -/
theorem Request.bytes_encode {i : Instr} {d q : Byte} (h : i.operandField = codeword d q) :
    Request.aHi (encode i) = d ∧ Request.aLo (encode i) = q := by
  rw [Request.aHi_eq_highByte_operand, Request.aLo_eq_lowByte_operand, Request.operand_encode, h]
  exact ⟨highByte_codeword d q, lowByte_codeword d q⟩

/-- Settles O2: the `op` field of the word selects the constructor again, and the operand field holds its operands. -/
theorem decodeUndoesEncode : Obligations.DecodeUndoesEncode := by
  intro i
  rw [decode, Request.op_encode, Request.operand_encode]
  cases i with
  | enc d x =>
    obtain ⟨hd, hx⟩ := Request.bytes_encode (i := .enc d x) rfl
    rw [hd, hx]; rfl
  | syn w => rfl
  | cor d q =>
    obtain ⟨hd, hq⟩ := Request.bytes_encode (i := .cor d q) rfl
    rw [hd, hq]; rfl
  | dec w => rfl

/-- Settles O3: by the two `op` bits, the decoded instruction has the request's `op` and operand fields. -/
theorem encodeUndoesDecode : Obligations.EncodeUndoesDecode := by
  intro req
  have hfields : (decode req).opcode = Request.op req ∧ (decode req).operandField = Request.operand req := by
    cases h17 : req.getLsbD 17 <;> cases h16 : req.getLsbD 16 <;> rw [Request.op_eq_bits, h17, h16]
    case false.false => rw [decode_eq_enc h17 h16]; exact ⟨rfl, Request.bytes_of_operand req⟩
    case false.true => rw [decode_eq_syn h17 h16]; exact ⟨rfl, rfl⟩
    case true.false => rw [decode_eq_cor h17 h16]; exact ⟨rfl, Request.bytes_of_operand req⟩
    case true.true => rw [decode_eq_dec h17 h16]; exact ⟨rfl, rfl⟩
  obtain ⟨hop, hoperand⟩ := hfields
  rw [encode, hop, hoperand, Request.op_append_operand]

/-! The rows of the opcode table (30_encoding.md section 3). -/

/-- Every instruction's word is selected by the row of its mnemonic. -/
theorem tableRow_statement (i : Instr) : Laws.TableRow.Statement i := by
  cases i with
  | enc d x => exact Laws.TableRow.enc d x
  | syn w => exact Laws.TableRow.syn w
  | cor d q => exact Laws.TableRow.cor d q
  | dec w => exact Laws.TableRow.dec w

/-- Every row masks the `op` field and nothing else, and no two rows have one pattern. -/
theorem opcodeTable_mask_and_pattern :
    ∀ row ∈ opcodeTable, row.mask = 0x30000#18 ∧ ∀ other ∈ opcodeTable, other.pattern = row.pattern → other = row := by
  decide

/-- Settles O5: the row of the decoded instruction selects the word, which O3 gives back; a row that selects the same
word has the same pattern, hence is the same row. -/
theorem eachRequestMatchesOneRow : Obligations.EachRequestMatchesOneRow := by
  intro req
  obtain ⟨row, hrow, hmnemonic, hselects⟩ := tableRow_statement (decode req)
  rw [encodeUndoesDecode req] at hselects
  refine ⟨row, hrow, hselects, hmnemonic, fun other hother hselects' => ?unique⟩
  case unique =>
    obtain ⟨hmask, hunique⟩ := opcodeTable_mask_and_pattern row hrow
    have hmask' : other.mask = 0x30000#18 := (opcodeTable_mask_and_pattern other hother).1
    rw [OpcodeRow.selects, hmask, beq_iff_eq] at hselects
    rw [OpcodeRow.selects, hmask', beq_iff_eq] at hselects'
    exact hunique other hother (hselects'.symm.trans hselects)

/-- Settles O1, each word by evaluating the decoder. -/
theorem writtenRequestWordsDecode : Obligations.WrittenRequestWordsDecode :=
  ⟨by decide, by decide, by decide, by decide, by decide⟩

end Sys2Proof

namespace Sys2Proof.Machine

/-! The assembler reads each part of what the disassembler prints (R40). -/

theorem digitValue_hexDigit : ∀ n : BitVec 4, digitValue (hexDigit n) = some n := by decide

theorem readByte_byteText (b : Byte) (rest : List Char) : readByte (byteText b ++ rest) = some (b, rest) := by
  have hdigits : b.extractLsb' 4 4 ++ b.extractLsb' 0 4 = b :=
    (BitVec.extractLsb'_append_extractLsb'_eq_extractLsb' rfl).trans BitVec.extractLsb'_eq_self
  simp only [byteText, List.cons_append, List.nil_append, readByte, digitValue_hexDigit, hdigits]

theorem readWord_wordText (w : Word16) (rest : List Char) : readWord (wordText w ++ rest) = some (w, rest) := by
  have hdigits : (w.extractLsb' 12 4 ++ w.extractLsb' 8 4) ++ (w.extractLsb' 4 4 ++ w.extractLsb' 0 4) = w := by
    rw [BitVec.extractLsb'_append_extractLsb'_eq_extractLsb' (show 12 = 8 + 4 from rfl),
      BitVec.extractLsb'_append_extractLsb'_eq_extractLsb' (show 4 = 0 + 4 from rfl)]
    exact (BitVec.extractLsb'_append_extractLsb'_eq_extractLsb' rfl).trans BitVec.extractLsb'_eq_self
  simp only [wordText, List.cons_append, List.nil_append, readWord, digitValue_hexDigit, hdigits]

/-! Each line: the literal begins with no space, and nothing follows the last operand. -/

theorem readWordLine_wordText (make : Word16 → Instr) (w : Word16) :
    readWordLine make (wordText w) = some (make w) := by
  have hread : readWord (skipSpaces (wordText w)) = some (w, []) := readWord_wordText w []
  rw [readWordLine, hread]; rfl

theorem readEncLine_byteText (d : Byte) : readEncLine (byteText d) = some (.enc d 0x00#8) := by
  have hread : readByte (skipSpaces (byteText d)) = some (d, []) := readByte_byteText d []
  rw [readEncLine, hread]; rfl

theorem readCorLine_bytes (d q : Byte) :
    readCorLine (byteText d ++ [',', ' '] ++ byteText q) = some (.cor d q) := by
  have hreadD : readByte (skipSpaces (byteText d ++ [',', ' '] ++ byteText q)) =
      some (d, [',', ' '] ++ byteText q) := by
    rw [List.append_assoc]
    exact readByte_byteText d _
  have hcomma : skipSpaces ([',', ' '] ++ byteText q) = ',' :: ' ' :: byteText q := rfl
  have hreadQ : readByte (skipSpaces (' ' :: byteText q)) = some (q, []) := readByte_byteText q []
  simp only [readCorLine, hreadD, hcomma, hreadQ]; rfl

/-- Settles O6: the mnemonic selects the reader of its line, which reads the operands back. -/
theorem assemblerReadsWhatItPrints : Obligations.AssemblerReadsWhatItPrints := by
  intro i
  cases i with
  | enc d x => exact readEncLine_byteText d
  | syn w => exact readWordLine_wordText .syn w
  | cor d q => exact readCorLine_bytes d q
  | dec w => exact readWordLine_wordText .dec w

end Sys2Proof.Machine

namespace Sys2Proof.Machine

/-! Masking with one set bit reads that bit, so a table column shows in the syndrome of a one-bit word (R20). -/

/-- The parity of a word masked by one bit, on the bits below any number. -/
theorem parityBelow_and_single {w : Nat} {m : BitVec w} {p : Nat} (hm : ∀ k < w, m.getLsbD k = decide (p = k))
    (v : BitVec w) {n : Nat} (hn : n ≤ w) : parityBelow (v &&& m) n = (decide (p < n) && v.getLsbD p) := by
  induction n with
  | zero => simp
  | succ n ih =>
    rw [parityBelow_succ, ih (by omega), BitVec.getLsbD_and, hm n (by omega)]
    rcases eq_or_ne p n with rfl | hne
    · simp
    · have hlt : p < n + 1 ↔ p < n := by omega
      simp [hne, hlt]

theorem parity_and_single {w : Nat} {m : BitVec w} {p : Nat} (hm : ∀ k < w, m.getLsbD k = decide (p = k))
    (hp : p < w) (v : BitVec w) : parity (v &&& m) = v.getLsbD p := by
  rw [parity, parityBelow_and_single hm v le_rfl, decide_eq_true hp, Bool.true_and]

/-- Bit `7 - r` of `SYN(e(p))` is bit `p` of row `r`. -/
theorem syn_bitWord_getLsbD (t : Tables) {p : Nat} (hp : p < 16) (r : Fin 8) :
    (syn t (bitWord p)).getLsbD (7 - r.val) = (readH t r).getLsbD p := by
  rw [syn_getLsbD, parity_and_single (fun k hk => getLsbD_bitWord hk) hp]

theorem getLsbD_byte_shift {p k : Nat} (hk : k < 8) : (1#8 <<< p).getLsbD k = decide (p = k) := by
  simp only [BitVec.getLsbD_shiftLeft, BitVec.getLsbD_one, hk]
  grind

/-- ENC of a one-bit byte is SYN of the same bit at its place in the codeword (R21). -/
theorem enc_single_bit (t : Tables) {k : Nat} (hk : k < 8) : enc t (1#8 <<< k) = syn t (bitWord (8 + k)) :=
  byte_eq_of_rows fun r => by
    rw [syn_bitWord_getLsbD t (by omega), enc_getLsbD, parity_and_single (fun j hj => getLsbD_byte_shift hj) hk,
      getLsbD_highByte _ k hk]

/-- Settles O21: fingerprint and syndrome of `e(15 - i)` are equal exactly when their eight bits are. -/
theorem fingerprintsAreColumns : Obligations.FingerprintsAreColumns := by
  refine fun t => forall_congr' fun i => ?_
  have hbit (r : Fin 8) : (syn t (bitWord (15 - i.val))).getLsbD (7 - r.val) = (readH t r).getLsbD (15 - i.val) :=
    syn_bitWord_getLsbD t (by omega) r
  constructor
  · intro heq r
    rw [heq, hbit]
  · exact fun hbits => byte_eq_of_rows fun r => by rw [hbits, hbit]

/-- Settles O22: the byte is `SYN(e(p))`, whose bits are the column (`syn_bitWord_getLsbD`). -/
theorem tableEntriesShowInResults : Obligations.TableEntriesShowInResults := by
  intro s p hp
  refine ⟨syn s.tables (bitWord p), exec_syn (bitWord p) s, syn_bitWord_getLsbD s.tables hp, fun k x hk => ?enc,
    fun hcolumns i hi => ?column⟩
  case enc => rw [exec_enc, enc_single_bit s.tables (by omega), ← hk, State.answer]
  case column => rw [hi, hcolumns i]

/-! Consistent tables row by row (R53). -/

/-- The syndrome of an encoded byte, row by row: the row's high byte gives the parity bit again, and its low byte
masks the parity symbol. -/
theorem syn_codeword_enc_getLsbD (t : Tables) (b : Byte) (r : Fin 8) :
    (syn t (codeword b (enc t b))).getLsbD (7 - r.val) =
      ((enc t b).getLsbD (7 - r.val) ^^ parity (lowByte (readH t r) &&& enc t b)) := by
  rw [syn_getLsbD, parity_and_codeword, enc_getLsbD]

theorem wfConsistent_iff_rows (t : Tables) : WfConsistent t ↔
    ∀ (r : Fin 8) (b : Byte), parity (lowByte (readH t r) &&& enc t b) = (enc t b).getLsbD (7 - r.val) := by
  constructor
  · intro hconsistent r b
    have hbit := syn_codeword_enc_getLsbD t b r
    rw [hconsistent b, BitVec.getLsbD_zero] at hbit
    exact (bne_eq_false_iff_eq.mp hbit.symm).symm
  · refine fun hrows b => byte_eq_of_rows fun r => ?_
    rw [syn_codeword_enc_getLsbD, hrows r b, Bool.xor_self, BitVec.getLsbD_zero]

/-- `0x80 >> r` is the byte with only bit `7 - r` set. -/
theorem getLsbD_identityByte (r : Fin 8) : ∀ k < 8, (0x80#8 >>> r.val).getLsbD k = decide (7 - r.val = k) := by
  revert r
  decide

/-- With identity low bytes row `r` reads bit `7 - r` of the parity symbol. -/
theorem parity_identityByte_and (r : Fin 8) (q : Byte) : parity (0x80#8 >>> r.val &&& q) = q.getLsbD (7 - r.val) := by
  rw [BitVec.and_comm, parity_and_single (getLsbD_identityByte r) (by omega)]

/-- Settles O19: the syndrome of a codeword read row by row, and identity low bytes read the parity bit itself. -/
theorem consistencyRowByRow : Obligations.ConsistencyRowByRow := by
  refine fun t => ⟨wfConsistent_iff_rows t, fun hidentity => ?sufficient⟩
  case sufficient =>
    exact (wfConsistent_iff_rows t).mpr fun r b => by rw [hidentity r, parity_identityByte_and]

/-- With identity low bytes a parity symbol alone is its own syndrome, so `SYN` of a word compares `ENC` of its high
byte with its low byte. -/
theorem syn_eq_enc_xor_lowByte {t : Tables} (hidentity : IdentityLowBytes t) (w : Word16) :
    syn t w = enc t (highByte w) ^^^ lowByte w :=
  byte_eq_of_rows fun r => by
    conv_lhs => rw [← codeword_highByte_lowByte w]
    rw [syn_getLsbD, parity_and_codeword, hidentity r, parity_identityByte_and, BitVec.getLsbD_xor, enc_getLsbD]

/-! R53's converse, by the transpose of ENC: masking ENC's answer with `v` is masking its operand with the XOR of the
row high bytes that `v` chooses. -/

/-- The XOR of the high bytes of the chosen rows, as `IndependentHighBytes` writes it. -/
def chosenRows (t : Tables) (chosen : Fin 8 → Bool) : Byte :=
  rowIndices.foldl (fun acc r => if chosen r then acc ^^^ highByte (readH t r) else acc) 0x00#8

theorem parityBelow_eq_foldl {w : Nat} (v : BitVec w) (n : Nat) :
    parityBelow v n = (List.range n).foldl (fun acc k => acc ^^ v.getLsbD k) false := by
  induction n with
  | zero => rfl
  | succ n ih => rw [parityBelow_succ, ih, List.range_succ, List.foldl_append, List.foldl_cons, List.foldl_nil]

/-- Row order takes the bits of a byte from bit 7 down; the XOR of all of them is the same. -/
theorem parity_eq_foldl_rows (v : Byte) :
    parity v = rowIndices.foldl (fun acc r => acc ^^ v.getLsbD (7 - r.val)) false := by
  have horder : rowIndices.map (fun r => 7 - r.val) = (List.range 8).reverse := by decide
  calc parity v
    _ = (List.range 8).foldl (fun acc k => acc ^^ v.getLsbD k) false := parityBelow_eq_foldl v 8
    _ = (List.range 8).reverse.foldl (fun acc k => acc ^^ v.getLsbD k) false :=
      (List.reverse_perm _).symm.foldl_eq'
        (fun j _ k _ acc => Bool.xor_right_comm acc (v.getLsbD j) (v.getLsbD k)) false
    _ = rowIndices.foldl (fun acc r => acc ^^ v.getLsbD (7 - r.val)) false := by rw [← horder, List.foldl_map]

theorem parity_chosenRows_and (t : Tables) (chosen : Fin 8 → Bool) (b : Byte) :
    parity (chosenRows t chosen &&& b) =
      rowIndices.foldl (fun acc r => acc ^^ (chosen r && parity (highByte (readH t r) &&& b))) false := by
  have hstart : parity (0x00#8 &&& b) = false := by rw [BitVec.zero_and, parity_zero]
  rw [chosenRows, ← hstart]
  refine (List.foldl_hom (fun acc => parity (acc &&& b)) fun acc r => ?_).symm
  cases chosen r with
  | false => simp
  | true => simp [BitVec.and_comm _ b, parity_and_xor]

/-- The transpose of ENC. -/
theorem parity_and_enc (t : Tables) (v b : Byte) :
    parity (v &&& enc t b) = parity (chosenRows t (fun r => v.getLsbD (7 - r.val)) &&& b) := by
  rw [parity_eq_foldl_rows, parity_chosenRows_and]
  simp only [BitVec.getLsbD_and, enc_getLsbD]

/-- A byte is zero when every mask of it has even parity. -/
theorem eq_zero_of_parity_and {v : Byte} (h : ∀ b : Byte, parity (v &&& b) = false) : v = 0x00#8 :=
  BitVec.eq_of_getLsbD_eq fun k hk => by
    rw [← parity_and_single (fun j hj => getLsbD_byte_shift hj) hk v, h, BitVec.getLsbD_zero]

/-- Independent high bytes: only zero masks every answer of ENC to even parity. -/
theorem eq_zero_of_parity_and_enc {t : Tables} (hindependent : IndependentHighBytes t) {v : Byte}
    (h : ∀ b, parity (v &&& enc t b) = false) : v = 0x00#8 := by
  have hchosen : chosenRows t (fun r => v.getLsbD (7 - r.val)) = 0x00#8 :=
    eq_zero_of_parity_and fun b => by rw [← parity_and_enc, h]
  exact byte_eq_of_rows fun r => by rw [hindependent _ hchosen r, BitVec.getLsbD_zero]

/-- Settles O20: the low byte of row `r` and `0x80 >> r` mask every answer of ENC to the same parity (O19), so their
XOR masks every answer to even parity and is zero. -/
theorem identityLowBytesAreForced : Obligations.IdentityLowBytesAreForced := by
  intro t hindependent hconsistent r
  refine BitVec.xor_eq_zero_iff.mp (eq_zero_of_parity_and_enc hindependent fun b => ?_)
  rw [BitVec.and_comm, parity_and_xor, BitVec.and_comm, (wfConsistent_iff_rows t).mp hconsistent r b,
    BitVec.and_comm, parity_identityByte_and, Bool.xor_self]

end Sys2Proof.Machine

namespace Sys2Proof.Machine

/-! A word as the XOR of its bits by table index (R22), so that its syndrome under WF_COLUMNS is the XOR of as many
fingerprints as it has set bits. -/

/-- The word with the bits at the positions of the listed indices. -/
def indexWord (l : List (Fin 16)) : Word16 := l.foldr (fun i w => bitWord (15 - i.val) ^^^ w) 0x0000#16

/-- The XOR of the fingerprints at the listed indices. -/
def fingerprintSum (t : Tables) (l : List (Fin 16)) : Byte := l.foldr (fun i q => readD t i ^^^ q) 0x00#8

@[simp] theorem indexWord_nil : indexWord [] = 0x0000#16 := rfl
@[simp] theorem indexWord_cons (i : Fin 16) (l : List (Fin 16)) :
    indexWord (i :: l) = bitWord (15 - i.val) ^^^ indexWord l := rfl
@[simp] theorem fingerprintSum_nil (t : Tables) : fingerprintSum t [] = 0x00#8 := rfl
@[simp] theorem fingerprintSum_cons (t : Tables) (i : Fin 16) (l : List (Fin 16)) :
    fingerprintSum t (i :: l) = readD t i ^^^ fingerprintSum t l := rfl

theorem syn_indexWord {t : Tables} (hcolumns : WfColumns t) (l : List (Fin 16)) :
    syn t (indexWord l) = fingerprintSum t l := by
  induction l with
  | nil => exact syn_zero t
  | cons i l ih => rw [indexWord_cons, syn_xor, ← hcolumns i, ih, fingerprintSum_cons]

theorem indexWord_getLsbD {l : List (Fin 16)} (hl : l.Nodup) (i : Fin 16) :
    (indexWord l).getLsbD (15 - i.val) = decide (i ∈ l) := by
  induction l with
  | nil => simp
  | cons j l ih =>
    obtain ⟨hj, hl⟩ := List.nodup_cons.mp hl
    have hposition : 15 - j.val = 15 - i.val ↔ i = j := by omega
    rw [indexWord_cons, BitVec.getLsbD_xor, getLsbD_bitWord (by omega), ih hl]
    rcases eq_or_ne i j with rfl | hne
    · simp [hj]
    · simp [hposition, hne]

/-- Setting a clear bit adds one to the count of set bits below any number above its position. -/
theorem popcountBelow_bitWord_xor {w : Word16} {p : Nat} (hp : w.getLsbD p = false) {n : Nat} (hn : n ≤ 16) :
    popcountBelow (bitWord p ^^^ w) n = popcountBelow w n + if p < n then 1 else 0 := by
  induction n with
  | zero => rfl
  | succ n ih =>
    rw [popcountBelow_succ, popcountBelow_succ, ih (by omega), BitVec.getLsbD_xor, getLsbD_bitWord (by omega)]
    rcases eq_or_ne p n with rfl | hne
    · simp [hp]
    · have hlt : p < n + 1 ↔ p < n := by omega
      simp [hne, hlt, Nat.add_right_comm]

theorem popcount_indexWord {l : List (Fin 16)} (hl : l.Nodup) : popcount (indexWord l) = l.length := by
  induction l with
  | nil => rfl
  | cons i l ih =>
    obtain ⟨hi, hl⟩ := List.nodup_cons.mp hl
    have hclear : (indexWord l).getLsbD (15 - i.val) = false := by rw [indexWord_getLsbD hl, decide_eq_false hi]
    have hcount := popcountBelow_bitWord_xor hclear (n := 16) le_rfl
    rw [if_pos (by omega)] at hcount
    rw [indexWord_cons, popcount, hcount, List.length_cons, ← ih hl, popcount]

/-- Every word is the word of its set bits' indices, in ascending order, as many as its popcount. -/
theorem exists_sorted_indices (x : Word16) :
    ∃ l : List (Fin 16), l.Pairwise (· < ·) ∧ l.length = popcount x ∧ indexWord l = x := by
  let l := tableIndices.filter fun i => x.getLsbD (15 - i.val)
  have hsorted : l.Pairwise (· < ·) := tableIndices_sorted.filter _
  have hword : indexWord l = x := BitVec.eq_of_getLsbD_eq fun k hk => by
    obtain ⟨i, rfl⟩ := exists_index_of_position hk
    rw [indexWord_getLsbD hsorted.nodup]
    simp [l, mem_tableIndices]
  exact ⟨l, hsorted, by rw [← hword, popcount_indexWord hsorted.nodup], hword⟩

/-! R57: the conditions against minimum distance 5, by the number of fingerprints XORed. -/

/-- Minimum distance 5 in fingerprints: no one to four of them at different indices XOR to zero. -/
theorem DistanceFive.fingerprintSum_ne_zero {t : Tables} (hcolumns : WfColumns t) (hdistance : DistanceFive t)
    {l : List (Fin 16)} (hl : l.Nodup) (hnonempty : l ≠ []) (hshort : l.length ≤ 4) :
    fingerprintSum t l ≠ 0x00#8 := by
  have hcount := popcount_indexWord hl
  rw [← syn_indexWord hcolumns]
  refine hdistance _ (fun hzero => hnonempty ?_) (hcount ▸ hshort)
  rw [hzero] at hcount
  exact List.length_eq_zero_iff.mp hcount.symm

theorem DistanceFive.readD_ne_zero {t : Tables} (hcolumns : WfColumns t) (hdistance : DistanceFive t) (i : Fin 16) :
    readD t i ≠ 0x00#8 := by
  simpa using hdistance.fingerprintSum_ne_zero hcolumns (l := [i]) (by simp) (by simp) (by simp)

theorem DistanceFive.readD_injective {t : Tables} (hcolumns : WfColumns t) (hdistance : DistanceFive t)
    {i j : Fin 16} (heq : readD t i = readD t j) : i = j := by
  by_contra hij
  exact hdistance.fingerprintSum_ne_zero hcolumns (l := [i, j]) (by simp [hij]) (by simp) (by simp) (by simp [heq])

theorem DistanceFive.wfDistinct {t : Tables} (hcolumns : WfColumns t) (hdistance : DistanceFive t) : WfDistinct t :=
  ⟨hdistance.readD_ne_zero hcolumns, fun _ _ => hdistance.readD_injective hcolumns⟩

theorem DistanceFive.wfSeparate {t : Tables} (hcolumns : WfColumns t) (hdistance : DistanceFive t) :
    WfSeparate t := by
  intro i j hij k heq
  rcases eq_or_ne k i with rfl | hki
  · exact hdistance.readD_ne_zero hcolumns j (by simpa using heq)
  rcases eq_or_ne k j with rfl | hkj
  · exact hdistance.readD_ne_zero hcolumns i (by simpa using heq)
  · refine hdistance.fingerprintSum_ne_zero hcolumns (l := [i, j, k]) ?_ (by simp) (by simp) ?_
    · simp [hij.ne, hki.symm, hkj.symm]
    · simp [← heq]

/-- Two pairs with one XOR share an index, or their four fingerprints XOR to zero; a shared index cancels, and the
other two fingerprints are equal. -/
theorem DistanceFive.wfPairs {t : Tables} (hcolumns : WfColumns t) (hdistance : DistanceFive t) : WfPairs t := by
  rintro s - i j k l hij hkl hmatch rfl
  have hinjective (a b : Fin 16) (heq : readD t a = readD t b) : a = b := hdistance.readD_injective hcolumns heq
  have hzero : fingerprintSum t [i, j, k, l] = 0x00#8 := by simp [← hmatch]
  have hshared : ¬[i, j, k, l].Nodup := fun hl =>
    hdistance.fingerprintSum_ne_zero hcolumns hl (by simp) (by simp) hzero
  have hcases : i = k ∨ i = l ∨ j = k ∨ j = l := by
    by_contra! hne
    exact hshared (by simp [hij.ne, hkl.ne, hne])
  rcases hcases with rfl | rfl | rfl | rfl
  · exact ⟨rfl, hinjective j l ((BitVec.xor_right_inj _).mp hmatch)⟩
  · rw [BitVec.xor_comm (readD t k), BitVec.xor_right_inj] at hmatch
    exact absurd (hinjective j k hmatch) (hkl.trans hij).ne'
  · rw [BitVec.xor_comm (readD t i), BitVec.xor_right_inj] at hmatch
    exact absurd (hinjective i l hmatch) (hij.trans hkl).ne
  · exact ⟨hinjective i k ((BitVec.xor_left_inj _).mp hmatch), rfl⟩

/-- WF_DISTINCT excludes a zero XOR of one or two fingerprints, WF_SEPARATE one of three, WF_PAIRS one of four. -/
theorem fingerprintSum_ne_zero_of_conditions {t : Tables} (hdistinct : WfDistinct t) (hpairs : WfPairs t)
    (hseparate : WfSeparate t) {l : List (Fin 16)} (hsorted : l.Pairwise (· < ·)) (hnonempty : l ≠ [])
    (hshort : l.length ≤ 4) : fingerprintSum t l ≠ 0x00#8 := by
  intro hzero
  match l with
  | [] => exact hnonempty rfl
  | [i] => exact hdistinct.1 i (by simpa using hzero)
  | [i, j] =>
    have hij : i < j := by simpa using hsorted
    exact readD_xor_ne_zero hdistinct hij.ne (by simpa using hzero)
  | [i, j, k] =>
    obtain ⟨⟨hij, -⟩, -⟩ : (i < j ∧ i < k) ∧ j < k := by simpa using hsorted
    refine hseparate i j hij k (BitVec.xor_eq_zero_iff.mp ?_)
    simpa [BitVec.xor_assoc] using hzero
  | [i, j, k, m] =>
    obtain ⟨⟨hij, hik, -⟩, -, hkm⟩ : (i < j ∧ i < k ∧ i < m) ∧ (j < k ∧ j < m) ∧ k < m := by simpa using hsorted
    have hmatch : readD t i ^^^ readD t j = readD t k ^^^ readD t m :=
      BitVec.xor_eq_zero_iff.mp (by simpa [BitVec.xor_assoc] using hzero)
    exact hik.ne (hpairs _ (readD_xor_ne_zero hdistinct hij.ne) i j k m hij hkm rfl hmatch.symm).1
  | _ :: _ :: _ :: _ :: _ :: _ =>
    simp only [List.length_cons] at hshort
    omega

theorem distanceFive_of_conditions {t : Tables} (hcolumns : WfColumns t) (hdistinct : WfDistinct t)
    (hpairs : WfPairs t) (hseparate : WfSeparate t) : DistanceFive t := by
  intro x hx hcount
  obtain ⟨l, hsorted, hlength, rfl⟩ := exists_sorted_indices x
  rw [syn_indexWord hcolumns]
  refine fingerprintSum_ne_zero_of_conditions hdistinct hpairs hseparate hsorted (fun hnil => hx ?_) (hlength ▸ hcount)
  rw [hnil, indexWord_nil]

/-- Settles O23: each way by the list of fingerprints that a word's set bits XOR to. -/
theorem conditionsMeanDistanceFive : Obligations.ConditionsMeanDistanceFive := by
  refine fun t hcolumns => ⟨?conditions, fun hdistance => ?distance⟩
  case conditions =>
    rintro ⟨hdistinct, hpairs, hseparate⟩
    exact distanceFive_of_conditions hcolumns hdistinct hpairs hseparate
  case distance =>
    exact ⟨hdistance.wfDistinct hcolumns, hdistance.wfPairs hcolumns, hdistance.wfSeparate hcolumns⟩

/-- Settles O18: the five conditions of REF are the witnesses of the tests, and they mean distance at least 5 (O23); a
word of popcount 5 attains it; REF's low bytes are the identity. -/
theorem referenceTablesMeetEveryCondition : Obligations.ReferenceTablesMeetEveryCondition := by
  have href := Tests.ref_correctsTwo
  refine ⟨href, ?distance, ?attained, syn_eq_enc_xor_lowByte Tests.ref_identity_low_bytes⟩
  case distance => exact distanceFive_of_conditions href.columns href.distinct href.pairs href.separate
  case attained => decide +kernel

end Sys2Proof.Machine

namespace Sys2Proof.Machine

/-! Errors on a codeword: undetected ones (R67), DEC's answer for any (R95). -/

/-- A word has syndrome zero exactly when every row selects an even number of its bits. -/
theorem syn_eq_zero_iff_even (t : Tables) (x : Word16) :
    syn t x = 0x00#8 ↔ ∀ r : Fin 8, popcount (readH t r &&& x) % 2 = 0 := by
  have hbit (r : Fin 8) : (syn t x).getLsbD (7 - r.val) = (popcount (readH t r &&& x) % 2 == 1) := by
    rw [syn_getLsbD, parity_eq_odd_popcount]
  constructor
  · intro hzero r
    have hodd := hbit r
    rw [hzero, BitVec.getLsbD_zero, eq_comm, beq_eq_false_iff_ne] at hodd
    exact Nat.mod_two_ne_one.mp hodd
  · exact fun heven => byte_eq_of_rows fun r => by simp [hbit, heven r]

/-- Settles O30: the codeword's own syndrome is zero and SYN is additive; the rest is `syn_eq_zero_iff_even` and R80's
case of syndrome zero. -/
theorem undetectedErrorsAreTheEvenOnes : Obligations.UndetectedErrorsAreTheEvenOnes := by
  intro s c x hc
  have hsyn : syn s.tables (c ^^^ x) = syn s.tables x := by rw [syn_xor, hc, BitVec.zero_xor]
  refine ⟨hsyn, ?even, fun hzero => ?passesThrough⟩
  case even => rw [hsyn, syn_eq_zero_iff_even]
  case passesThrough => rw [exec_dec, dec_of_syn_eq_zero (hsyn.trans hzero), State.answer]

/-- R95's undetected case: the byte DEC answers for an error pattern with syndrome zero. -/
theorem dec_codeword_enc_xor_undetected {t : Tables} (hconsistent : WfConsistent t) (b : Byte) {x : Word16}
    (hx : syn t x = 0x00#8) : dec t (codeword b (enc t b) ^^^ x) = b ^^^ highByte x := by
  rw [dec_of_syn_eq_zero ((syn_codeword_enc_xor hconsistent b x).trans hx), highByte_xor, highByte_codeword]

/-- Settles O42: the two cases of R95, each read off for when it gives the byte sent. -/
theorem decOutcomeForAnyError : Obligations.DecOutcomeForAnyError := by
  intro s b x hconsistent
  refine ⟨_, exec_dec _ s, dec_codeword_enc_xor hconsistent b, dec_codeword_enc_xor_undetected hconsistent b, ?_⟩
  by_cases hx : syn s.tables x = 0x00#8
  · rw [dec_codeword_enc_xor_undetected hconsistent b hx]
    simp [hx]
  · rw [dec_codeword_enc_xor hconsistent b hx, BitVec.xor_assoc]
    simp [hx, eq_comm (a := highByte x)]

end Sys2Proof.Machine

namespace Sys2Proof.Machine

/-! The host's streams (R23 to R25, log entry 11), with the responses of CORE written as ENC and DEC. -/

/-- The response to an instruction's request word is what the instruction answers: decoding gives it back (O2). -/
theorem respond_encode_of_exec {i : Instr} {s : State} {q : Byte} (h : exec i s = .next (s.answer q)) :
    respond s.tables (encode i) = q := by
  rw [← decodeUndoesEncode i, exec_decode] at h
  simpa [State.answer] using h

theorem respond_encode_enc (t : Tables) (b x : Byte) : respond t (encode (.enc b x)) = enc t b :=
  respond_encode_of_exec (s := ⟨t, [], []⟩) (exec_enc b x _)

theorem respond_encode_dec (t : Tables) (w : Word16) : respond t (encode (.dec w)) = dec t w :=
  respond_encode_of_exec (s := ⟨t, [], []⟩) (exec_dec w _)

theorem encodeStream_eq (t : Tables) (message : List Byte) :
    encodeStream t message = interleave message (message.map (enc t)) := by
  simp [encodeStream, encodeRequests, Function.comp_def, respond_encode_enc]

theorem decodeStream_eq (t : Tables) (stream : List Byte) :
    decodeStream t stream = (codewordsOf stream).map (dec t) := by
  simp [decodeStream, decodeRequests, Function.comp_def, respond_encode_dec]

theorem length_interleave_map (f : Byte → Byte) (message : List Byte) :
    (interleave message (message.map f)).length = 2 * message.length := by
  induction message with
  | nil => rfl
  | cons b message ih => simp [interleave, ih, Nat.mul_add]

theorem codewordsOf_interleave_map (f : Byte → Byte) (message : List Byte) :
    codewordsOf (interleave message (message.map f)) = message.map fun b => codeword b (f b) := by
  induction message with
  | nil => rfl
  | cons b message ih => simp [interleave, codewordsOf, ih]

theorem length_codewordsOf (stream : List Byte) : (codewordsOf stream).length = stream.length / 2 := by
  induction stream using codewordsOf.induct with
  | case1 b p rest ih =>
    simp only [codewordsOf, List.length_cons, ih]
    omega
  | case2 => simp [codewordsOf]
  | case3 => rfl

/-- Codeword `k` is made of bytes `2k` and `2k + 1` (R24). -/
theorem codewordsOf_getElem? {stream : List Byte} {k : Nat} {b p : Byte} (hb : stream[2 * k]? = some b)
    (hp : stream[2 * k + 1]? = some p) : (codewordsOf stream)[k]? = some (codeword b p) := by
  induction stream using codewordsOf.induct generalizing k with
  | case1 b' p' rest ih =>
    cases k with
    | zero =>
      cases hb
      cases hp
      rfl
    | succ k => exact ih hb hp
  | case2 => simp at hp
  | case3 => simp at hp

/-- A trailing odd byte is no codeword (R25). -/
theorem codewordsOf_append_odd (last : Byte) {stream : List Byte} (heven : stream.length % 2 = 0) :
    codewordsOf (stream ++ [last]) = codewordsOf stream := by
  induction stream using codewordsOf.induct with
  | case1 b p rest ih =>
    have hrest : rest.length % 2 = 0 := by
      simp only [List.length_cons] at heven
      omega
    rw [List.cons_append, List.cons_append, codewordsOf, codewordsOf, ih hrest]
  | case2 => simp at heven
  | case3 => rfl

/-- Settles O43, each clause from the codewords a stream is cut into. -/
theorem streamLengthsAndPositions : Obligations.StreamLengthsAndPositions := by
  refine fun t message stream => ⟨?encodeLength, ?decodeLength, fun k b p hb hp => ?position, fun last heven => ?odd⟩
  case encodeLength => rw [encodeStream_eq, length_interleave_map]
  case decodeLength => rw [decodeStream_eq, List.length_map, length_codewordsOf]
  case position => rw [decodeStream_eq, List.getElem?_map, codewordsOf_getElem? hb hp, Option.map_some]
  case odd => rw [decodeStream_eq, decodeStream_eq, codewordsOf_append_odd last heven]

/-- The codewords of an encoded stream are those of the message's bytes, in order. -/
theorem codewordsOf_encodeStream (t : Tables) (message : List Byte) :
    codewordsOf (encodeStream t message) = message.map fun b => codeword b (enc t b) := by
  rw [encodeStream_eq, codewordsOf_interleave_map]

/-- Settles O44: each codeword decodes to its byte (R90). -/
theorem streamRoundTrip : Obligations.StreamRoundTrip := by
  intro t message hconsistent
  have hbyte : dec t ∘ (fun b => codeword b (enc t b)) = id := funext (dec_codeword_enc hconsistent)
  rw [decodeStream_eq, codewordsOf_encodeStream, List.map_map, hbyte, List.map_id]

/-! Up to two bit errors in every codeword (R93, R94). -/

/-- The byte DEC answers is determined by the state it leads to. -/
theorem dec_eq_of_exec {w : Word16} {s : State} {b : Byte}
    (h : exec (.dec w) s = .next { s with responses := s.responses ++ [b] }) : dec s.tables w = b := by
  rw [exec_dec] at h
  simpa [State.answer] using h

/-- Under the five conditions DEC corrects no, one (O40) or two (O41) bit errors. -/
theorem dec_corrects_two_errors {t : Tables} (htables : CorrectsTwo t) (b : Byte) {x : Word16}
    (hx : popcount x ≤ 2) : dec t (codeword b (enc t b) ^^^ x) = b := by
  obtain ⟨l, hsorted, hlength, rfl⟩ := exists_sorted_indices x
  rw [← hlength] at hx
  clear hlength
  match l with
  | [] => rw [indexWord_nil, BitVec.xor_zero, dec_codeword_enc htables.consistent]
  | [i] =>
    have hone := singleBitErrorsAreCorrected ⟨t, [], []⟩ b (15 - i.val) htables.toCorrectsOne (by omega)
    simpa using dec_eq_of_exec hone
  | [i, j] =>
    have hij : i < j := by simpa using hsorted
    have htwo := doubleBitErrorsAreCorrected ⟨t, [], []⟩ b (15 - i.val) (15 - j.val) htables
      (by omega) (by omega) (by omega)
    simpa [BitVec.xor_assoc] using dec_eq_of_exec htwo
  | _ :: _ :: _ :: _ =>
    simp only [List.length_cons] at hx
    omega

/-- Decoding the received codewords of a message one by one gives its bytes. -/
theorem map_dec_received {t : Tables} (htables : CorrectsTwo t) {message : List Byte} {errors : List Word16}
    (hlength : errors.length = message.length) (herrors : ∀ x ∈ errors, popcount x ≤ 2) :
    (List.zipWith (· ^^^ ·) (message.map fun b => codeword b (enc t b)) errors).map (dec t) = message := by
  induction message generalizing errors with
  | nil => rfl
  | cons b message ih =>
    cases errors with
    | nil => cases hlength
    | cons x errors =>
      obtain ⟨hx, herrors⟩ := List.forall_mem_cons.mp herrors
      rw [List.map_cons, List.zipWith_cons_cons, List.map_cons, dec_corrects_two_errors htables b hx,
        ih (Nat.succ.inj hlength) herrors]

/-- Settles O45: the run answers every request in its place (O14), and the response to each is DEC of the
received codeword. -/
theorem messageSurvivesTwoErrorsPerCodeword : Obligations.MessageSurvivesTwoErrorsPerCodeword := by
  intro t message errors htables hlength herrors
  have hrespond : respond t ∘ (fun w => encode (.dec w)) = dec t := funext (respond_encode_dec t)
  rw [runAnswersEachRequestInItsPlace, codewordsOf_encodeStream, List.drop_of_length_le (by simp [hlength]),
    List.take_of_length_le (by simp [hlength]), List.map_map, hrespond, map_dec_received htables hlength herrors,
    List.nil_append]

end Sys2Proof.Machine
